-- ==== Sys2Proof/Word.lean ====
section
/-! DEFINITION. The two word types of the engine: the byte (an entry of `S` or `KEY`, a data byte, `I`, `J`) and
the 32-bit word of the command and response channels (spec/00_scope.md R5, R6). Bit 0 is the least significant bit
and every value is unsigned, which is how `BitVec` reads. -/

namespace Sys2Proof

/-- A byte, 0..255 (R5 `BYTE`). -/
abbrev Byte := BitVec 8

/-- A command word or a response word (R5 `CW_W`, `RW_W`). -/
abbrev Word := BitVec 32

end Sys2Proof
end

