-- ==== Sys2Proof/Config.lean ====
section
/-! DEFINITION. What one implementation fixes: the two values spec/00_scope.md R5 marks as parameters, at the value
R5 gives them. There is no free value: after spec/92_eei_decisions.md no command word has undefined behaviour
(spec/93_implementation_defined.md). -/

namespace Sys2Proof

/-- A drop count. Its width is `DROP_W` (R5): the width of the `DROP` register and of the operand of `SETDROP`. -/
abbrev DropCount := BitVec 24

end Sys2Proof

namespace Sys2Proof.Config

/-- `DROP_DEFAULT` (R5): the value of `DROP` after reset and after `CLEAR`. -/
def dropDefault : DropCount := 768#24

end Sys2Proof.Config
end

