-- ==== Sys2Proof/Syntax.lean ====
section
/-! DEFINITION. The commands: `Instr`, one constructor per row of spec/opcode_table.json (spec/30_encoding.md R74),
and an assembler line before its operand is checked (R81). Nothing here says what a command does. -/

namespace Sys2Proof

/-- The seven commands with their operands (R71 to R75). The operand's width is its type: every value of it is
legal (R72, R73). `S`, `I`, `J`, `KEY`, `KEYLEN`, `DROP` and `PHASE` are implicit operands and are not named (R75). -/
inductive Instr where
  /-- `CLEAR`, format N: destroy the instance and its key. -/
  | clear
  /-- `KEYB b`, format B: append one key byte. -/
  | keyb (b : Byte)
  /-- `SETDROP n`, format W: set the drop count. -/
  | setdrop (n : DropCount)
  /-- `INIT`, format N: schedule the key, discard `DROP` bytes, become `READY`. -/
  | init
  /-- `XORB b`, format B: pull one keystream byte and answer `b xor k`. -/
  | xorb (b : Byte)
  /-- `RDSTAT`, format N: read `PHASE` and `KEYLEN`. -/
  | rdstat
  /-- `RDDROP`, format N: read `DROP`. -/
  | rddrop
  deriving DecidableEq, Repr

/-- The mnemonics of R74. -/
inductive Mnemonic where
  | clear | keyb | setdrop | init | xorb | rdstat | rddrop
  deriving DecidableEq, Repr

/-- The three formats of R71 to R73. -/
inductive Format where
  /-- No operand. -/
  | n
  /-- One byte operand. -/
  | b
  /-- One 24-bit operand. -/
  | w
  deriving DecidableEq, Repr

/-- The format of each mnemonic (R74). -/
def Mnemonic.format : Mnemonic → Format
  | .clear | .init | .rdstat | .rddrop => .n
  | .keyb | .xorb => .b
  | .setdrop => .w

/-- The mnemonic of a command. -/
def Instr.mnemonic : Instr → Mnemonic
  | .clear => .clear
  | .keyb _ => .keyb
  | .setdrop _ => .setdrop
  | .init => .init
  | .xorb _ => .xorb
  | .rdstat => .rdstat
  | .rddrop => .rddrop

/-- One assembler line, `MNEMONIC [operand]` (R81), its operand a number of any size or absent. -/
structure AsmLine where
  mnemonic : Mnemonic
  operand  : Option Nat
  deriving DecidableEq, Repr

end Sys2Proof
end

