-- ==== Sys2Proof/WellFormed.lean ====
section
/-! DEFINITION. What is well formed before it is given a meaning: an assembler line (spec/30_encoding.md R81), and a
32-bit word read against the match and mask columns of the opcode map (R74). A value of `Instr` needs no check of its
own: its operands' ranges are their types (R72, R73: every value legal). -/

namespace Sys2Proof

/-- Whether a line's operand is as its format asks (R81): absent in format N, 0..255 in format B, 0..16,777,215 in
format W. An operand out of range cannot be assembled. -/
def AsmLine.wellFormed (l : AsmLine) : Bool :=
  match l.mnemonic.format, l.operand with
  | .n, none => true
  | .n, some _ => false
  | .b, some b => decide (b < 2 ^ 8)
  | .b, none => false
  | .w, some n => decide (n < 2 ^ 24)
  | .w, none => false

/-- A row of the opcode map (R74): a word `cw` is the row's command exactly when `cw & mask = pattern`. -/
structure OpcodeRow where
  mnemonic : Mnemonic
  pattern  : Word
  mask     : Word
  deriving DecidableEq, Repr

/-- The opcode map, its match and mask columns letter for letter (R74, spec/opcode_table.json). -/
def opcodeTable : List OpcodeRow :=
  [ ⟨.clear,   0x01000000#32, 0xFFFFFFFF#32⟩,
    ⟨.keyb,    0x02000000#32, 0xFFFFFF00#32⟩,
    ⟨.setdrop, 0x03000000#32, 0xFF000000#32⟩,
    ⟨.init,    0x04000000#32, 0xFFFFFFFF#32⟩,
    ⟨.xorb,    0x05000000#32, 0xFFFFFF00#32⟩,
    ⟨.rdstat,  0x06000000#32, 0xFFFFFFFF#32⟩,
    ⟨.rddrop,  0x07000000#32, 0xFFFFFFFF#32⟩ ]

/-- Whether a word is a row's command (R74). -/
def OpcodeRow.matchesWord (r : OpcodeRow) (cw : Word) : Bool :=
  cw &&& r.mask == r.pattern

/-- A well-formed command word: one that some row of the opcode map matches. Every other word is illegal
(R76, R77, R164). -/
def Word.wellFormed (cw : Word) : Bool :=
  opcodeTable.any fun r => r.matchesWord cw

end Sys2Proof
end

