-- ==== Sys2Proof/Decode.lean ====
section
/-! DEFINITION. The decoder, total on every 32-bit word (spec/30_encoding.md R78), the encoder written from the
formats of R71 to R73 and the opcodes of R74, and the host's entry point to the decoder. -/

namespace Sys2Proof

/-- The opcode field `cw[31:24]` (R70). -/
def opField (cw : Word) : BitVec 8 := cw.extractLsb' 24 8

/-- The operand field `cw[23:0]` (R70). -/
def argField (cw : Word) : BitVec 24 := cw.extractLsb' 0 24

/-- The byte operand `cw[7:0]` of format B (R72). -/
def byteField (cw : Word) : Byte := cw.extractLsb' 0 8

/-- The reserved bits `cw[23:8]` of format B (R72). -/
def reservedField (cw : Word) : BitVec 16 := cw.extractLsb' 8 16

/-- Why a word is no command. -/
inductive Illegal where
  /-- The opcode is 0x00 or 0x08..0xFF (R76). -/
  | reservedOpcode
  /-- The opcode is defined and a reserved bit is not zero (R77). -/
  | reservedBits
  deriving DecidableEq, Repr

/-- What the decoder says of a word. -/
inductive Decoded where
  | command (i : Instr)
  | illegal (why : Illegal)
  deriving DecidableEq, Repr

/-- Format N (R71): the whole operand field is reserved and must be zero. -/
def decodeN (i : Instr) (cw : Word) : Decoded :=
  if argField cw = 0#24 then .command i else .illegal .reservedBits

/-- Format B (R72): bits `[23:8]` are reserved and must be zero. -/
def decodeB (i : Byte → Instr) (cw : Word) : Decoded :=
  if reservedField cw = 0#16 then .command (i (byteField cw)) else .illegal .reservedBits

/-- The decoder (R78). It reads no state. -/
def decode (cw : Word) : Decoded :=
  if opField cw = 0x01#8 then decodeN .clear cw
  else if opField cw = 0x02#8 then decodeB .keyb cw
  else if opField cw = 0x03#8 then .command (.setdrop (argField cw))
  else if opField cw = 0x04#8 then decodeN .init cw
  else if opField cw = 0x05#8 then decodeB .xorb cw
  else if opField cw = 0x06#8 then decodeN .rdstat cw
  else if opField cw = 0x07#8 then decodeN .rddrop cw
  else .illegal .reservedOpcode

/-- Format N: the opcode over 24 zero bits (R71). -/
def encodeN (op : BitVec 8) : Word := op ++ 0#24

/-- Format B: the opcode, 16 zero bits, the operand byte (R72). -/
def encodeB (op : BitVec 8) (b : Byte) : Word := op ++ 0#16 ++ b

/-- Format W: the opcode over the 24-bit immediate (R73). -/
def encodeW (op : BitVec 8) (n : BitVec 24) : Word := op ++ n

/-- The word of a command (R71 to R74). -/
def encode : Instr → Word
  | .clear => encodeN 0x01#8
  | .keyb b => encodeB 0x02#8 b
  | .setdrop n => encodeW 0x03#8 n
  | .init => encodeN 0x04#8
  | .xorb b => encodeB 0x05#8 b
  | .rdstat => encodeN 0x06#8
  | .rddrop => encodeN 0x07#8

/-- The command word whose bits are the low `nbits` bits of `w`, every higher bit 0. A command is one word, given on a
parallel port, so no byte order arises (R53, R70). -/
def tableWord (nbits w : Nat) : Word := BitVec.ofNat 32 (w % 2 ^ nbits)

/-- The command the decoder reads from a word numbered as spec/opcode_table.json numbers it. Nothing longer than 32
bits is a command (R80). -/
def decodeTableWord (nbits w : Nat) : Option Instr :=
  if nbits ≤ 32 then
    match decode (tableWord nbits w) with
    | .command i => some i
    | .illegal _ => none
  else none

end Sys2Proof
end

