-- ==== Sys2Proof/Machine/State.lean ====
section
/-! DEFINITION. The state: the seven items of spec/10_state.md R20 (`Engine`), and the two lists that stand for what
crosses the ports (spec/00_scope.md R12): what the host will do at the engine, and the responses it has been given.
Also the reasons a step can stop, and the state right after reset (R35). -/

namespace Sys2Proof.Machine

/-- An internal memory of 256 one-byte entries, index 0..255 (R50): its (index, byte) pairs, in the canonical form
`Memory.wf` of Ops.lean. -/
abbrev Memory := List Host.Cell

/-- `PHASE` (R28): a one-bit control register. -/
inductive Phase where
  /-- 0: no instance exists, a key may be loaded and `DROP` set. -/
  | idle
  /-- 1: an instance exists and its discard phase is done. -/
  | ready
  deriving DecidableEq, Repr

/-- The engine's architectural state, exactly the seven items of R20. -/
structure Engine where
  /-- `S` (R21), the permutation. -/
  S      : Memory
  /-- `I` (R23), the first cursor index. -/
  I      : Byte
  /-- `J` (R23), the second cursor index. -/
  J      : Byte
  /-- `KEY` (R25), the key bytes being loaded. -/
  KEY    : Memory
  /-- `KEYLEN` (R26), how many entries of `KEY` are loaded, 0..256. -/
  KEYLEN : BitVec 9
  /-- `DROP` (R27), the drop count of the next instance. -/
  DROP   : DropCount
  /-- `PHASE` (R28). -/
  PHASE  : Phase
  deriving DecidableEq, Repr

/-- What the host may do at the ports (R10, R198). -/
inductive HostAction where
  /-- Give a command: any 32-bit word. -/
  | command (cw : Word)
  /-- Apply `rst` between two commands (R185, R186). -/
  | reset
  /-- Give a command and apply `rst` while it is executing (R186): the command is abandoned. -/
  | commandCutByReset (cw : Word)
  deriving DecidableEq, Repr

/-- The whole state of the model. -/
structure State where
  /-- The engine's own state. -/
  engine    : Engine
  /-- The host's actions still to come, the next one first (log entry 1). -/
  input     : List HostAction
  /-- The response words the host has been given, in order (R199, log entry 2). -/
  responses : List Word
  deriving DecidableEq, Repr

/-- The machine never stops with a fault, so there is no reason to name: every one of the 2^32 words is a command or
answers `ILLEGAL_CMD` (R77), an out-of-range access cannot occur (R51, R52), and there is no hang state (R201).
Nothing raises a fault (log entry 7). -/
inductive Fault where
  deriving DecidableEq, Repr

/-- Reasons for which the model gives an instruction no meaning. -/
inductive Refusal where
  /-- Raised by an arm of `exec` whose command has no meaning yet; safe. No arm raises it: all seven commands have
  their meaning. -/
  | notModelled (mnemonic : String)
  deriving DecidableEq, Repr

/-- The engine right after reset (R35). -/
def Engine.reset : Engine where
  S      := []
  I      := 0#8
  J      := 0#8
  KEY    := []
  KEYLEN := 0#9
  DROP   := Config.dropDefault
  PHASE  := .idle

/-- The machine right after reset: the engine as R35 says, no host action pending and no response given yet. -/
def State.reset : State where
  engine    := Engine.reset
  input     := []
  responses := []

end Sys2Proof.Machine
end

