-- ==== Sys2Proof/Machine/Ops.lean ====
section
/-! DEFINITION. The named operations of spec/00_scope.md R7 over the internal memories and the registers, the response
word (spec/30_encoding.md R79), the error response, which is all that taking an exception is on this engine
(spec/60_exceptions.md R160, R161, R166), and hardware reset (spec/70_reset_and_hazards.md R185). -/

namespace Sys2Proof.Machine

/-! ### The internal memories `S` and `KEY` -/

/-- What an index no write has listed reads as: the reset contents of both memories, 0 (R35). -/
def Memory.unlisted : Byte := 0#8

/-- The canonical form: indices strictly rising, all of them in 0..255, and no entry equal to `Memory.unlisted`. -/
abbrev Memory.wf (m : Memory) : Prop :=
  (m.map Prod.fst).Pairwise (· < ·) ∧ ∀ c ∈ m, c.1 < 256 ∧ c.2 ≠ Memory.unlisted

/-- The byte listed at an index, by the index as a number. -/
def Memory.lookup : Memory → Nat → Byte
  | [], _ => Memory.unlisted
  | (k, v) :: m, a => if k = a then v else Memory.lookup m a

/-- The memory with no entry listed at an index. -/
def Memory.erase : Memory → Nat → Memory
  | [], _ => []
  | (k, v) :: m, a => if k = a then Memory.erase m a else (k, v) :: Memory.erase m a

/-- An entry put in its place by index. -/
def Memory.insert : Memory → Nat → Byte → Memory
  | [], a, v => [(a, v)]
  | (k, w) :: m, a, v => if k < a then (k, w) :: Memory.insert m a v else (a, v) :: (k, w) :: m

/-- `MemRead(M, a, 1)` (R7): the read of one entry. The index is a byte, so it is always in 0..255 (R51). A read has no
side effect (R55). -/
def Memory.read (m : Memory) (a : Byte) : Byte := m.lookup a.toNat

/-- `MemWrite(M, a, 1, v)` (R7): the write of one entry and of nothing else (R55), the canonical form kept. -/
def Memory.write (m : Memory) (a : Byte) (v : Byte) : Memory :=
  if v = Memory.unlisted then Memory.erase m a.toNat
  else Memory.insert (Memory.erase m a.toNat) a.toNat v

/-- Every entry zero: `for a in 0..255: M[a] <- 0` (R94, R146). No entry is listed. -/
def Memory.zeros : Memory := []

/-- `swap(S, a, b)` (R7): both reads come before both writes (R56). -/
def Memory.swap (m : Memory) (a b : Byte) : Memory :=
  (m.write a (m.read b)).write b (m.read a)

/-! ### The response word and the error response -/

/-- The response codes (R160). Codes 4..15 are never produced, so they have no name. -/
inductive Code where
  | ok | invalidInput | usageError | illegalCmd
  deriving DecidableEq, Repr

/-- The code numbers (R79, R160). -/
def Code.bits : Code → BitVec 4
  | .ok => 0#4
  | .invalidInput => 1#4
  | .usageError => 2#4
  | .illegalCmd => 3#4

/-- The response word: the code, four zero bits, the data (R79). -/
def responseWord (code : Code) (data : BitVec 24) : Word := code.bits ++ 0#4 ++ data

/-- `s` with one more response given to the host. -/
def State.answer (s : State) (code : Code) (data : BitVec 24) : State :=
  { s with responses := s.responses ++ [responseWord code data] }

/-- `s` with another engine state. -/
def State.withEngine (s : State) (e : Engine) : State := { s with engine := e }

/-- `respond(code, data)` (R7): the command ends and the host gets the response word. -/
def respond (code : Code) (data : BitVec 24) (s : State) : Host.Outcome State Fault Refusal :=
  .next (s.answer code data)

/-- The errors a command can raise (R160). -/
inductive CommandError where
  /-- Raised by `INIT` with an empty key (R162). -/
  | invalidInput
  /-- Raised by a command its phase does not allow (R163). -/
  | usageError
  /-- Raised by the decoder (R164). -/
  | illegalCommand
  deriving DecidableEq, Repr

/-- The code an error is reported with (R160). -/
def CommandError.code : CommandError → Code
  | .invalidInput => .invalidInput
  | .usageError => .usageError
  | .illegalCommand => .illegalCmd

/-- `raise <Error>` (R7, R160, R161, R166): the error's response with data 0 and no write to any state. Nothing is
saved, no mode changes and control goes nowhere, so there is nothing a return would restore (R167). -/
def raise (e : CommandError) (s : State) : Host.Outcome State Fault Refusal :=
  respond e.code 0#24 s

/-- The phase check of a command that one phase alone allows (R163): in the other phase it raises `UsageError`. -/
def whenPhase (p : Phase) (s : State) (k : Host.Outcome State Fault Refusal) : Host.Outcome State Fault Refusal :=
  if s.engine.PHASE = p then k else raise .usageError s

/-! ### Hardware reset -/

/-- The values of R35, which `CLEAR` writes one by one (R146). -/
def clearedEngine : Engine where
  S      := Memory.zeros
  I      := 0#8
  J      := 0#8
  KEY    := Memory.zeros
  KEYLEN := 0#9
  DROP   := Config.dropDefault
  PHASE  := .idle

/-- `rst` (R185): every item of the engine's state takes its reset value; no response is produced. -/
def hardwareReset (s : State) : State := s.withEngine Engine.reset

end Sys2Proof.Machine
end

