-- ==== Sys2Proof/Machine/Operands.lean ====
section
/-! DEFINITION. The operand and index forms the commands use: the four indices into `S` and the two into `KEY`
(spec/20_memory.md R51, R52), and the extension of a byte to the 24-bit data field (spec/00_scope.md R7 `zext`). All of
it is unsigned arithmetic modulo 256 (spec/41_keystream.md R119). -/

namespace Sys2Proof.Machine

/-- `zext_24(v)`: a byte in the response's data field, zeros above (R7, R130). -/
def zext24 (v : Byte) : BitVec 24 := v.setWidth 24

/-- `idx mod KEYLEN` (R52, R96): the key index of a schedule step. `INIT` checks `KEYLEN >= 1` first (R95). -/
def keyReadIndex (idx : Byte) (keylen : BitVec 9) : Byte := BitVec.ofNat 8 (idx.toNat % keylen.toNat)

/-- Whether `KEYB` has room: `KEYLEN < 256` (R92). -/
def keyHasRoom (keylen : BitVec 9) : Bool := decide (keylen.toNat < 256)

/-- The index `KEYB` writes: `KEYLEN`, which is below 256 when it writes (R52). -/
def keyWriteIndex (keylen : BitVec 9) : Byte := keylen.setWidth 8

/-- `(kj + S[idx] + KEY[idx mod KEYLEN]) mod 256` (R51, R96). -/
def accumulatorIndex (S : Memory) (kj idx : Byte) (KEY : Memory) (keylen : BitVec 9) : Byte :=
  kj + S.read idx + KEY.read (keyReadIndex idx keylen)

/-- `(I + 1) mod 256` (R112). -/
def nextI (I : Byte) : Byte := I + 1#8

/-- `(J + S[I]) mod 256`, with the new `I` (R112). -/
def nextJ (S : Memory) (I J : Byte) : Byte := J + S.read I

/-- `(S[I] + S[J]) mod 256`, the index of the output byte (R51, R112). -/
def outputIndex (S : Memory) (I J : Byte) : Byte := S.read I + S.read J

end Sys2Proof.Machine
end

