-- ==== Sys2Proof/Machine/Keystream.lean ====
section
/-! DEFINITION. Keystream generation and the drop count (spec/41_keystream.md): the functions `PrgaStep` and `Discard`
and the meaning of `SETDROP`. -/

namespace Sys2Proof.Machine

/-- The engine after one `PrgaStep` (R112): the new `I`, the new `J` from `S` at the new `I`, then the swap. -/
def prgaNext (e : Engine) : Engine :=
  let I := nextI e.I
  let J := nextJ e.S I e.J
  { e with I := I, J := J, S := e.S.swap I J }

/-- The byte an engine that has just stepped gives out: `S[(S[I] + S[J]) mod 256]`, every read after the swap
(R112, R113). -/
def prgaOutput (e : Engine) : Byte := e.S.read (outputIndex e.S e.I e.J)

/-- `PrgaStep()` (R112): the engine after the step, and the byte the step returns. -/
def prgaStep (e : Engine) : Engine × Byte := (prgaNext e, prgaOutput (prgaNext e))

/-- `Discard(n)` (R115): `n` steps, their bytes thrown away. -/
def discard : Nat → Engine → Engine
  | 0, e => e
  | n + 1, e => discard n (prgaStep e).1

/-- `SETDROP n` (R110): write `DROP` in `IDLE`. -/
def execSetdrop (n : DropCount) (s : State) : Host.Outcome State Fault Refusal :=
  whenPhase .idle s (respond .ok 0#24 (s.withEngine { s.engine with DROP := n }))

end Sys2Proof.Machine
end

