-- ==== Sys2Proof/Machine/KeySchedule.lean ====
section
/-! DEFINITION. Key loading and key scheduling (spec/40_key_schedule.md): the functions `KsaStep` and `Ksa` and the
meanings of `KEYB` and `INIT`. -/

namespace Sys2Proof.Machine

/-- `KsaStep(S, kj, idx)` (R96). `S[idx]` in the sum is read before the swap; the swap uses the new `kj`. -/
def ksaStep (KEY : Memory) (keylen : BitVec 9) (st : Memory × Byte) (idx : Byte) : Memory × Byte :=
  let kj := accumulatorIndex st.1 st.2 idx KEY keylen
  (st.1.swap idx kj, kj)

/-- The identity permutation, `S[a] <- a` for `a` = 0..255 (R97). Entry 0 holds 0, so it is not listed. -/
def identityMemory : Memory := (List.range' 1 255).map fun a => (a, BitVec.ofNat 8 a)

/-- `Ksa(KEY, KEYLEN)` (R97): from the identity and `kj = 0`, the steps for `idx` = 0, 1, ..., 255 in this order;
the last `kj` is dropped. -/
@[irreducible]
def ksa (KEY : Memory) (keylen : BitVec 9) : Memory :=
  ((List.range 256).foldl (fun st idx => ksaStep KEY keylen st (BitVec.ofNat 8 idx)) (identityMemory, 0#8)).1

/-- The engine with one more key byte (R92). -/
def appendKeyByte (e : Engine) (b : Byte) : Engine :=
  { e with KEY := e.KEY.write (keyWriteIndex e.KEYLEN) b, KEYLEN := e.KEYLEN + 1#9 }

/-- `KEYB b` (R92): append a key byte in `IDLE`; a byte beyond the 256th is dropped with `OK` (R93). -/
def execKeyb (b : Byte) (s : State) : Host.Outcome State Fault Refusal :=
  whenPhase .idle s
    (if keyHasRoom s.engine.KEYLEN then respond .ok 0#24 (s.withEngine (appendKeyByte s.engine b))
     else respond .ok 0#24 s)

/-- The engine with a freshly scheduled `S` and the cursor at (0, 0) (R97, R98). -/
def schedule (e : Engine) : Engine :=
  { e with S := ksa e.KEY e.KEYLEN, I := 0#8, J := 0#8 }

/-- The engine with no key, a live instance in it (R94, R99). -/
def becomeReady (e : Engine) : Engine :=
  { e with KEY := Memory.zeros, KEYLEN := 0#9, PHASE := .ready }

/-- What a successful `INIT` makes of the engine (R94): the schedule, the discard phase, the key wiped. -/
def construct (e : Engine) : Engine :=
  becomeReady (discard e.DROP.toNat (schedule e))

/-- `INIT` (R94): the phase check (R102), the empty-key check (R95), then the construction. -/
def execInit (s : State) : Host.Outcome State Fault Refusal :=
  whenPhase .idle s
    (if s.engine.KEYLEN = 0#9 then raise .invalidInput s
     else respond .ok 0#24 (s.withEngine (construct s.engine)))

end Sys2Proof.Machine
end

