-- ==== Sys2Proof/Machine/Flags.lean ====
section
/-! DEFINITION. The engine has no flags, no condition codes and no sticky error (spec/10_state.md R30). What it has in
their place is a status word that `RDSTAT` computes from two registers (R29): a view, not state. -/

namespace Sys2Proof.Machine

/-- `PHASE` as its bit (R28). -/
def Phase.bit : Phase → BitVec 1
  | .idle => 0#1
  | .ready => 1#1

/-- The status word (R29, R148): `PHASE` at bit 16, `KEYLEN` at bits 8..0, zeros elsewhere. -/
def statusWord (e : Engine) : BitVec 24 := 0#7 ++ e.PHASE.bit ++ 0#7 ++ e.KEYLEN

end Sys2Proof.Machine
end

