-- ==== Sys2Proof/Machine/System.lean ====
section
/-! DEFINITION. The system commands (spec/43_system.md): the meanings of `CLEAR`, `RDSTAT` and `RDDROP`, each legal in
either phase (spec/60_exceptions.md R163). -/

namespace Sys2Proof.Machine

/-- `CLEAR` (R146): every item of state takes its reset value. -/
def execClear (s : State) : Host.Outcome State Fault Refusal :=
  respond .ok 0#24 (s.withEngine clearedEngine)

/-- `RDSTAT` (R148): the status word; no state changes. -/
def execRdstat (s : State) : Host.Outcome State Fault Refusal :=
  respond .ok (statusWord s.engine) s

/-- `RDDROP` (R150): the drop count; no state changes. -/
def execRddrop (s : State) : Host.Outcome State Fault Refusal :=
  respond .ok s.engine.DROP s

end Sys2Proof.Machine
end

