-- ==== Sys2Proof/Machine/Transform.lean ====
section
/-! DEFINITION. The XOR transform (spec/42_transform.md): the meaning of `XORB`. -/

namespace Sys2Proof.Machine

/-- `XORB b` (R130, R131): in `READY`, exactly one `PrgaStep`, its byte xor the operand as the response. -/
def execXorb (b : Byte) (s : State) : Host.Outcome State Fault Refusal :=
  whenPhase .ready s
    (respond .ok (zext24 (b ^^^ (prgaStep s.engine).2)) (s.withEngine (prgaStep s.engine).1))

end Sys2Proof.Machine
end

