-- ==== Sys2Proof/Machine/Dispatch.lean ====
section
/-! DEFINITION. The dispatch: one arm per command. -/

namespace Sys2Proof.Machine

def exec (i : Instr) (s : State) : Host.Outcome State Fault Refusal :=
  match i with
  | .clear => Sys2Proof.Machine.execClear s
  | .keyb b => Sys2Proof.Machine.execKeyb b s
  | .setdrop n => Sys2Proof.Machine.execSetdrop n s
  | .init => Sys2Proof.Machine.execInit s
  | .xorb b => Sys2Proof.Machine.execXorb b s
  | .rdstat => Sys2Proof.Machine.execRdstat s
  | .rddrop => Sys2Proof.Machine.execRddrop s

end Sys2Proof.Machine
end

