-- ==== Sys2Proof/Machine/Port.lean ====
section
/-! DEFINITION. The command port (spec/00_scope.md R10, R12): what the engine does with the host's next action, and how
a word is put on the port. -/

namespace Sys2Proof.Machine

/-- A word given on the command port (R78): the command it decodes to runs; any other word raises `IllegalCommand`
before any state is looked at (R164, R165). -/
def execWord (cw : Word) (s : State) : Host.Outcome State Fault Refusal :=
  match decode cw with
  | .command i => exec i s
  | .illegal _ => raise .illegalCommand s

/-- One action of the host. A command that `rst` cuts short did not happen: no response and no partial effect of it
survives, and the state is the reset state (R186, log entry 4). -/
def hostAction (a : HostAction) (s : State) : Host.Outcome State Fault Refusal :=
  match a with
  | .command cw => execWord cw s
  | .reset => .next (hardwareReset s)
  | .commandCutByReset _ => .next (hardwareReset s)

/-- `s` with a word as the host's next command, before every action already pending (log entry 5). -/
def offerWord (s : State) (cw : Word) : State :=
  { s with input := .command cw :: s.input }

end Sys2Proof.Machine
end

