-- ==== Sys2Proof/Machine/Step.lean ====
section
/-! DEFINITION. One step of the machine: the host's next action, taken from `input` and carried out whole (spec/00_scope.md
R8, spec/20_memory.md R59). -/

namespace Sys2Proof.Machine

/-- One step. With no action pending the engine waits and holds its state (R10, R177, R199; log entry 3). -/
def step (s : State) : Host.Outcome State Fault Refusal :=
  match s.input with
  | [] => .next s
  | a :: rest => hostAction a { s with input := rest }

/-- `s` with the table word `w` as the next command the engine is given. -/
def State.withFetchWord (s : State) (nbits w : Nat) : State := offerWord s (tableWord nbits w)

end Sys2Proof.Machine
end

