-- ==== Sys2Proof/Machine/Assembler.lean ====
section
/-! DEFINITION. The host's side of the port: the assembler syntax (spec/30_encoding.md R81), the pseudo-instructions
(R82), and reading a response word back and writing it out (R79, R81). Nothing the engine does calls this file. -/

namespace Sys2Proof.Machine

/-! ### Assembling a line -/

/-- The command of a line, if its operand can be assembled (R81). -/
def assembleLine (l : AsmLine) : Option Instr :=
  if l.wellFormed then
    match l.mnemonic with
    | .clear => some .clear
    | .keyb => some (.keyb (BitVec.ofNat 8 (l.operand.getD 0)))
    | .setdrop => some (.setdrop (BitVec.ofNat 24 (l.operand.getD 0)))
    | .init => some .init
    | .xorb => some (.xorb (BitVec.ofNat 8 (l.operand.getD 0)))
    | .rdstat => some .rdstat
    | .rddrop => some .rddrop
  else none

/-- The mnemonics as they are written: capitals (R81). -/
def mnemonicChars : Mnemonic → List Char
  | .clear => ['C', 'L', 'E', 'A', 'R']
  | .keyb => ['K', 'E', 'Y', 'B']
  | .setdrop => ['S', 'E', 'T', 'D', 'R', 'O', 'P']
  | .init => ['I', 'N', 'I', 'T']
  | .xorb => ['X', 'O', 'R', 'B']
  | .rdstat => ['R', 'D', 'S', 'T', 'A', 'T']
  | .rddrop => ['R', 'D', 'D', 'R', 'O', 'P']

/-- The mnemonic a token spells. -/
def mnemonicOfToken (t : List Char) : Option Mnemonic :=
  [Mnemonic.clear, .keyb, .setdrop, .init, .xorb, .rdstat, .rddrop].find? fun m => mnemonicChars m == t

/-- The value of a digit in base 10 or 16. -/
def digitValue (base : Nat) (c : Char) : Option Nat :=
  let d := if '0' ≤ c ∧ c ≤ '9' then some (c.toNat - 48)
    else if 'a' ≤ c ∧ c ≤ 'f' then some (c.toNat - 87)
    else if 'A' ≤ c ∧ c ≤ 'F' then some (c.toNat - 55)
    else none
  d.filter (· < base)

/-- The number a run of digits spells, after those already read. -/
def digitsValue (base : Nat) : List Char → Nat → Option Nat
  | [], acc => some acc
  | c :: cs, acc =>
    match digitValue base c with
    | some d => digitsValue base cs (base * acc + d)
    | none => none

/-- A decimal number, or a hexadecimal one after `0x`, its digits in either case (R81, log entry 10). -/
def numberOfToken : List Char → Option Nat
  | [] => none
  | ['0', 'x'] => none
  | '0' :: 'x' :: c :: cs => digitsValue 16 (c :: cs) 0
  | c :: cs => digitsValue 10 (c :: cs) 0

/-- The tokens of a line, split at spaces and tabs (log entry 10); `cur` is the token being read, last character first. -/
def tokensOf : List Char → List Char → List (List Char)
  | [], [] => []
  | [], c :: cur => [(c :: cur).reverse]
  | c :: cs, cur =>
    if c = ' ' ∨ c = '\t' then
      (if cur = [] then tokensOf cs [] else cur.reverse :: tokensOf cs [])
    else tokensOf cs (c :: cur)

/-- The command one line of text assembles to, its comment from `;` left out (R81); `none` for a line the assembler
refuses. DESIGN CHOICE (log entry 17): a line holds one of the seven commands and no pseudo-instruction, so every `;`
begins a comment; the `;` of R82's `NEWINST drop; ...` is never read from text. -/
def assembleText (line : List Char) : Option Instr :=
  match tokensOf (line.takeWhile (· ≠ ';')) [] with
  | [m] => (mnemonicOfToken m).bind fun mn => assembleLine ⟨mn, none⟩
  | [m, o] => (mnemonicOfToken m).bind fun mn => (numberOfToken o).bind fun n => assembleLine ⟨mn, some n⟩
  | _ => none

/-! ### Pseudo-instructions (R82), as expansions of their operands and not as lines of text (log entry 17) -/

/-- `KSB`: pull one keystream byte. -/
def pseudoKsb : List Instr := [.xorb 0x00#8]

/-- `LOADKEY k0 ... k(L-1)`: append the bytes of a key in order. -/
def pseudoLoadKey (key : List Byte) : List Instr := key.map .keyb

/-- `XFORM d0 ... d(n-1)`: the source's `transform` of a buffer. -/
def pseudoXform (data : List Byte) : List Instr := data.map .xorb

/-- `NEWINST drop; k0 ... k(L-1)`, with the drop count given or left at its default. -/
def pseudoNewInst (drop : Option (DropCount)) (key : List Byte) : List Instr :=
  match drop with
  | some n => .clear :: pseudoLoadKey key ++ [.setdrop n, .init]
  | none => .clear :: pseudoLoadKey key ++ [.init]

/-- A sequence of commands as the host gives it at the port. -/
def commandsOf (is : List Instr) : List HostAction := is.map fun i => .command (encode i)

/-! ### Reading a response -/

/-- The names the codes are written with (R81, R160). -/
def Code.chars : Code → List Char
  | .ok => ['O', 'K']
  | .invalidInput => ['I', 'N', 'V', 'A', 'L', 'I', 'D', '_', 'I', 'N', 'P', 'U', 'T']
  | .usageError => ['U', 'S', 'A', 'G', 'E', '_', 'E', 'R', 'R', 'O', 'R']
  | .illegalCmd => ['I', 'L', 'L', 'E', 'G', 'A', 'L', '_', 'C', 'M', 'D']

/-- The code a code number names (R160); 4..15 name none. -/
def codeOfBits (b : BitVec 4) : Option Code :=
  if b = 0#4 then some .ok
  else if b = 1#4 then some .invalidInput
  else if b = 2#4 then some .usageError
  else if b = 3#4 then some .illegalCmd
  else none

/-- The code and the data of a response word (R79); `none` for a word the engine never produces (R160). -/
def readResponse (w : Word) : Option (Code × BitVec 24) :=
  match codeOfBits (w.extractLsb' 28 4) with
  | some c =>
    if w.extractLsb' 24 4 = 0#4 ∧ (c = .ok ∨ w.extractLsb' 0 24 = 0#24) then some (c, w.extractLsb' 0 24) else none
  | none => none

/-- A response as it is written: `-> CODE`, or `-> CODE data` (R81). The data is written, in decimal, when it is not 0
(log entry 10). -/
def responseText (w : Word) : Option (List Char) :=
  (readResponse w).map fun p =>
    ['-', '>', ' '] ++ p.1.chars ++ if p.2 = 0#24 then [] else ' ' :: Nat.toDigits 10 p.2.toNat

end Sys2Proof.Machine
end

