-- ==== Sys2Proof/Safety.lean ====
section
/-! DEFINITION. The terms claims are stated in: what holds in every state a run reaches (`Machine.State.Inv`), what a
response word may look like, and the cipher as the source states it, over plain functions and a key of any length
(`Reference`), which the machine is compared with. -/

namespace Sys2Proof.Machine

/-- A permutation of 0..255: every value at exactly one index (spec/10_state.md R22). -/
def Memory.isPermutation (m : Memory) : Prop := ∀ v : Byte, ∃ a : Byte, m.read a = v ∧ ∀ b : Byte, m.read b = v → b = a

/-- What holds of the engine in every state a run reaches. -/
structure Engine.Inv (e : Engine) : Prop where
  /-- `S` and `KEY` are in canonical form. -/
  wfS : e.S.wf
  wfKEY : e.KEY.wf
  /-- `KEYLEN` never takes the values 257..511 (R26). -/
  keylen : e.KEYLEN.toNat ≤ 256
  /-- Entries of `KEY` at index `KEYLEN` and above are 0 (R25). -/
  unloaded : ∀ a : Byte, e.KEYLEN.toNat ≤ a.toNat → e.KEY.read a = 0#8
  /-- In `IDLE`, `S` is all zeros and the cursor is (0, 0) (R22, R35). -/
  idle : e.PHASE = .idle → (∀ a : Byte, e.S.read a = 0#8) ∧ e.I = 0#8 ∧ e.J = 0#8
  /-- In `READY`, `S` is a permutation (R22), `KEYLEN` is 0 and `KEY` is all zeros (R26). -/
  ready : e.PHASE = .ready → e.S.isPermutation ∧ e.KEYLEN = 0#9 ∧ ∀ a : Byte, e.KEY.read a = 0#8

/-- The shape of every response word (spec/30_encoding.md R79): the code is 0..3, bits `[27:24]` are 0, and the data is
0 whenever the code is not 0. -/
def legalResponse (w : Word) : Prop :=
  (w.extractLsb' 28 4).toNat ≤ 3 ∧ w.extractLsb' 24 4 = 0#4 ∧
    (w.extractLsb' 28 4 ≠ 0#4 → w.extractLsb' 0 24 = 0#24)

/-- What holds of the whole state in every state a run reaches. -/
structure State.Inv (s : State) : Prop where
  engine : s.engine.Inv
  responses : ∀ w ∈ s.responses, legalResponse w

end Sys2Proof.Machine

namespace Sys2Proof.Reference

/-- Two entries of an array exchanged. -/
def swap (S : Byte → Byte) (a b : Byte) : Byte → Byte :=
  fun x => if x = a then S b else if x = b then S a else S x

/-- The key schedule after `n` iterations (spec/40_key_schedule.md R96, R97): `S` and the accumulator. The key has any
length, and iteration `i` reads `key[i mod len(key)]`, as the source writes it. -/
def scheduleAt (key : List Byte) : Nat → (Byte → Byte) × Byte
  | 0 => (fun a => a, 0#8)
  | n + 1 =>
    let S := (scheduleAt key n).1
    let i := BitVec.ofNat 8 n
    let j := (scheduleAt key n).2 + S i + key.getD (n % key.length) 0#8
    (swap S i j, j)

/-- A keystream generator: its permutation and its cursor. -/
structure Gen where
  S : Byte → Byte
  i : Byte
  j : Byte

/-- One generator step (spec/41_keystream.md R112). -/
def Gen.next (g : Gen) : Gen :=
  let i := g.i + 1#8
  let j := g.j + g.S i
  ⟨swap g.S i j, i, j⟩

/-- The byte a generator that has just stepped gives out (R112). -/
def Gen.output (g : Gen) : Byte := g.S (g.S g.i + g.S g.j)

/-- The generator a key gives, after `n` steps: 256 schedule iterations, then the cursor at (0, 0) (R97, R98). -/
def genAt (key : List Byte) : Nat → Gen
  | 0 => ⟨(scheduleAt key 256).1, 0#8, 0#8⟩
  | n + 1 => (genAt key n).next

/-- Byte `n` of the keystream a key gives with no byte discarded. -/
def keystream (key : List Byte) (n : Nat) : Byte := (genAt key (n + 1)).output

/-- The source's `transform` of a buffer under a key and a drop count (spec/42_transform.md R132, R133). -/
def transform (key : List Byte) (drop : Nat) (data : List Byte) : List Byte :=
  List.zipWith (fun d k => d ^^^ keystream key (drop + k)) data (List.range data.length)

end Sys2Proof.Reference

namespace Sys2Proof.Machine

/-- `n` steps, stopping at the first fault or refusal: the run of the host's interface, on this machine. -/
def run : Nat → State → Host.Outcome State Fault Refusal
  | 0, s => .next s
  | n + 1, s =>
    match step s with
    | .next t => run n t
    | .fault r => .fault r
    | .refused r => .refused r

/-- `s` with a sequence of commands to be given at the port, and nothing after them. -/
def State.given (s : State) (is : List Instr) : State := { s with input := commandsOf is }

/-- `s` with one more response. -/
def State.answered (s : State) (w : Word) : State := { s with responses := s.responses ++ [w] }

/-- The key an engine has loaded: `KEY[0..KEYLEN-1]` in order (spec/10_state.md R25). -/
def Engine.key (e : Engine) : List Byte := (List.range e.KEYLEN.toNat).map fun a => e.KEY.read (BitVec.ofNat 8 a)

/-- The permission table (spec/60_exceptions.md R163): whether a phase allows a command. -/
def phaseAllows (i : Instr) (p : Phase) : Bool :=
  match i with
  | .clear | .rdstat | .rddrop => true
  | .keyb _ | .setdrop _ | .init => p == .idle
  | .xorb _ => p == .ready

/-- A byte as the response word of a successful `XORB` (spec/42_transform.md R130): code 0, the byte in `data[7:0]`. -/
def byteResponse (b : Byte) : Word := b.setWidth 32

end Sys2Proof.Machine
end

