-- ==== Sys2Proof/Certificates/Slice0/Obligations.lean ====
section
/-! DEFINITION. The statements for the provers. Each docstring names the rule of spec/ it formalises. -/

open Sys2Proof Sys2Proof.Machine

/-! ### Encoding -/

/-- Words of spec/95_test_vectors.md V1, one or more for each format of spec/30_encoding.md R71 to R73, decode to the
command they stand for. -/
def Obligations.SampleWordsDecode : Prop :=
  decode 0x01000000#32 = .command .clear ∧ decode 0x0200004B#32 = .command (.keyb 0x4B#8) ∧
  decode 0x03000300#32 = .command (.setdrop 768#24) ∧ decode 0x03FFFFFF#32 = .command (.setdrop 16777215#24) ∧
  decode 0x04000000#32 = .command .init ∧ decode 0x050000FF#32 = .command (.xorb 0xFF#8) ∧
  decode 0x06000000#32 = .command .rdstat ∧ decode 0x07000000#32 = .command .rddrop

/-- Decoding and encoding agree in both directions, for every command with every operand and for every word: a word is
the command `i` exactly when it is the word R71 to R74 give `i`. So no bit of an operand is dropped and no command has a
second word. -/
def Obligations.WordIsACommandExactlyWhenItIsItsEncoding : Prop :=
  ∀ (cw : Word) (i : Instr), decode cw = .command i ↔ cw = encode i

/-- R74: the match and mask columns of the opcode map say of every word which command it is. -/
def Obligations.MatchAndMaskSelectTheCommand : Prop :=
  ∀ cw : Word,
    (decode cw = .command .clear ↔ cw &&& 0xFFFFFFFF#32 = 0x01000000#32) ∧
    ((∃ b, decode cw = .command (.keyb b)) ↔ cw &&& 0xFFFFFF00#32 = 0x02000000#32) ∧
    ((∃ n, decode cw = .command (.setdrop n)) ↔ cw &&& 0xFF000000#32 = 0x03000000#32) ∧
    (decode cw = .command .init ↔ cw &&& 0xFFFFFFFF#32 = 0x04000000#32) ∧
    ((∃ b, decode cw = .command (.xorb b)) ↔ cw &&& 0xFFFFFF00#32 = 0x05000000#32) ∧
    (decode cw = .command .rdstat ↔ cw &&& 0xFFFFFFFF#32 = 0x06000000#32) ∧
    (decode cw = .command .rddrop ↔ cw &&& 0xFFFFFFFF#32 = 0x07000000#32)

/-- R75: an operand is the low bits of the word as they stand. -/
def Obligations.OperandsAreTheLowBitsOfTheWord : Prop :=
  ∀ cw : Word,
    (∀ b, decode cw = .command (.keyb b) ∨ decode cw = .command (.xorb b) → b.toNat = cw.toNat % 2 ^ 8) ∧
    (∀ n, decode cw = .command (.setdrop n) → n.toNat = cw.toNat % 2 ^ 24)

/-- R76: a word with opcode 0x00 or 0x08..0xFF answers `ILLEGAL_CMD` (code 3) and changes no state, in every state; so
do the all-zero and the all-ones word. -/
def Obligations.ReservedOpcodeIsIllegal : Prop :=
  ∀ (s : State) (cw : Word),
    (cw.extractLsb' 24 8 = 0x00#8 ∨ 0x08#8 ≤ cw.extractLsb' 24 8 ∨ cw = 0x00000000#32 ∨ cw = 0xFFFFFFFF#32) →
    step (offerWord s cw) = .next (s.answered 0x30000000#32)

/-- R77: a word with a defined opcode and a reserved bit that is not zero answers `ILLEGAL_CMD` and changes no state;
and every one of the 2^32 words is one of the seven commands or answers so. -/
def Obligations.NonZeroReservedBitIsIllegal : Prop :=
  (∀ (s : State) (cw : Word),
    (cw.extractLsb' 24 8 ∈ [0x01#8, 0x04#8, 0x06#8, 0x07#8] ∧ cw.extractLsb' 0 24 ≠ 0#24) ∨
      (cw.extractLsb' 24 8 ∈ [0x02#8, 0x05#8] ∧ cw.extractLsb' 8 16 ≠ 0#16) →
    step (offerWord s cw) = .next (s.answered 0x30000000#32)) ∧
  ∀ cw : Word, (∃ i, decode cw = .command i ∧ cw = encode i) ∨
    ∀ s : State, step (offerWord s cw) = .next (s.answered 0x30000000#32)

/-- R164: whether a word is illegal is settled by the word alone, read against the opcode map; in every state a word
no row matches answers `ILLEGAL_CMD`, and a word some row matches does not. -/
def Obligations.IllegalityDependsOnTheWordAlone : Prop :=
  ∀ (s : State) (cw : Word),
    (Word.wellFormed cw = false → step (offerWord s cw) = .next (s.answered 0x30000000#32)) ∧
    (Word.wellFormed cw = true → ∃ t r, step (offerWord s cw) = .next t ∧ t.responses = s.responses ++ [r] ∧
      r.extractLsb' 28 4 ≠ 3#4)

/-! ### The step -/

/-- A command at the port runs: the step is `exec` of the decoded command, the word taken from the port (R8, R12, R62:
a command word is consumed when given). -/
def Obligations.StepRunsTheDecodedCommand : Prop :=
  ∀ (s : State) (cw : Word) (rest : List HostAction) (i : Instr),
    s.input = .command cw :: rest → decode cw = .command i → step s = exec i { s with input := rest }

/-- A table word put on the port by `withFetchWord` is the very next command to run (log entry 5, the model's own
convention). -/
def Obligations.OfferedTableWordRunsNext : Prop :=
  ∀ (s : State) (nbits w : Nat) (i : Instr),
    decodeTableWord nbits w = some i → step (s.withFetchWord nbits w) = exec i s

/-- R10: between two commands the engine's state does not change. With no action of the host pending a step changes
nothing at all (log entry 3). -/
def Obligations.WaitingEngineHoldsItsState : Prop :=
  ∀ s : State, s.input = [] → step s = .next s

/-- R8: the response and the engine's state after a command are a function of the engine's state before it and of the
command word alone: neither what the host will do next nor what was answered before has any part in them. -/
def Obligations.CommandEffectDependsOnEngineAndWordOnly : Prop :=
  ∀ (e : Engine) (cw : Word), ∃ (e' : Engine) (r : Word), ∀ (rest : List HostAction) (told : List Word),
    step ⟨e, .command cw :: rest, told⟩ = .next ⟨e', rest, told ++ [r]⟩

/-- Progress (spec/70_reset_and_hazards.md section 5) and one response per command, in order (spec/00_scope.md section
7). Every step answers a next state, so no run stops; a sequence of commands is answered by exactly as many responses as
it has commands, each after those given before, and none of them is withdrawn. That a step with no action pending
answers a next state is the model's convention (log entry 3), and that nothing stops a run is read from the spec by
inference (log entry 7). -/
def Obligations.EveryCommandIsAnsweredOnce : Prop :=
  (∀ (n : Nat) (s : State), ∃ t, run n s = .next t) ∧
  ∀ (words : List Word) (rest : List HostAction) (s : State), s.input = words.map .command ++ rest →
    ∃ t told, run words.length s = .next t ∧ t.input = rest ∧ t.responses = s.responses ++ told ∧
      told.length = words.length

/-! ### Reset -/

/-- R35: the values of every item right after reset. -/
def Obligations.ResetValues : Prop :=
  State.reset.engine.PHASE = .idle ∧ State.reset.engine.KEYLEN = 0#9 ∧ (∀ a, State.reset.engine.KEY.read a = 0#8) ∧
  State.reset.engine.DROP = 768#24 ∧ (∀ a, State.reset.engine.S.read a = 0#8) ∧ State.reset.engine.I = 0#8 ∧
  State.reset.engine.J = 0#8

/-- R185: `rst` puts every item to its reset value, in every state, whatever was there, between two commands and while
one is executing (when the port can take no command); it produces no response; and the state after it is the one `CLEAR`
leaves. -/
def Obligations.HardwareResetFromAnyState : Prop :=
  ∃ e : Engine,
    (e.PHASE = .idle ∧ e.KEYLEN = 0#9 ∧ (∀ a, e.KEY.read a = 0#8) ∧ e.DROP = 768#24 ∧ (∀ a, e.S.read a = 0#8) ∧
      e.I = 0#8 ∧ e.J = 0#8) ∧
    (∀ (s : State) (rest : List HostAction), s.input = .reset :: rest → step s = .next ⟨e, rest, s.responses⟩) ∧
    (∀ (s : State) (cw : Word) (rest : List HostAction), s.input = .commandCutByReset cw :: rest →
      step s = .next ⟨e, rest, s.responses⟩) ∧
    ∀ s : State, exec .clear s = .next ⟨e, s.input, s.responses ++ [0x00000000#32]⟩

/-- R186: a command that `rst` cuts short is abandoned: its response is never produced and no partial effect of it
survives; the step ends in what `rst` alone leaves, whatever the word was. -/
def Obligations.CommandCutByResetLeavesNoTrace : Prop :=
  ∀ (s : State) (cw : Word) (rest : List HostAction), s.input = .commandCutByReset cw :: rest →
    step s = .next ⟨State.reset.engine, rest, s.responses⟩ ∧ step s = step { s with input := .reset :: rest }

/-! ### The commands -/

/-- R146: `CLEAR`, in either phase and from any state, writes every item its reset value and answers `OK` with data 0;
the state after it is the reset state item for item, so a second `CLEAR` changes nothing, `RDSTAT` answers 0, `RDDROP`
768 and `XORB` `USAGE_ERROR`; its word is `0x01000000`, and with any operand bit set the word is illegal. -/
def Obligations.ClearDestroysTheInstanceAndTheKey : Prop :=
  encode .clear = 0x01000000#32 ∧
  (∀ cw : Word, cw.extractLsb' 24 8 = 0x01#8 → cw.extractLsb' 0 24 ≠ 0#24 →
    ∀ s : State, step (offerWord s cw) = .next (s.answered 0x30000000#32)) ∧
  ∀ s : State, ∃ e, exec .clear s = .next ⟨e, s.input, s.responses ++ [0x00000000#32]⟩ ∧
    (∀ a, e.S.read a = 0#8) ∧ e.I = 0#8 ∧ e.J = 0#8 ∧ (∀ a, e.KEY.read a = 0#8) ∧ e.KEYLEN = 0#9 ∧ e.DROP = 768#24 ∧
    e.PHASE = .idle ∧ e = State.reset.engine ∧
    ∀ u : State, u.engine = e → exec .clear u = .next (u.answered 0x00000000#32) ∧
      exec .rdstat u = .next (u.answered 0x00000000#32) ∧ exec .rddrop u = .next (u.answered 0x00000300#32) ∧
      ∀ b : Byte, exec (.xorb b) u = .next (u.answered 0x20000000#32)

/-- R92: `KEYB b` in `IDLE` with room writes `b` at index `KEYLEN` of `KEY` and nothing at any other index, counts it,
changes no other item and answers `OK`; with 256 bytes loaded it answers `OK` and changes nothing; in `READY` it answers
`USAGE_ERROR` and changes nothing; its word is `0x020000bb`, and with a reserved bit set the word is illegal. -/
def Obligations.KeybAppendsOneKeyByte : Prop :=
  (∀ b : Byte, encode (.keyb b) = 0x02000000#32 ||| b.setWidth 32) ∧
  (∀ cw : Word, cw.extractLsb' 24 8 = 0x02#8 → cw.extractLsb' 8 16 ≠ 0#16 →
    ∀ s : State, step (offerWord s cw) = .next (s.answered 0x30000000#32)) ∧
  ∀ (s : State) (b : Byte),
    (s.engine.PHASE = .idle → s.engine.KEYLEN.toNat < 256 → ∃ K : Memory,
      exec (.keyb b) s = .next ⟨{ s.engine with KEY := K, KEYLEN := s.engine.KEYLEN + 1#9 }, s.input,
        s.responses ++ [0x00000000#32]⟩ ∧
      (s.engine.KEYLEN + 1#9).toNat = s.engine.KEYLEN.toNat + 1 ∧
      ∀ a : Byte, K.read a = if a.toNat = s.engine.KEYLEN.toNat then b else s.engine.KEY.read a) ∧
    (s.engine.PHASE = .idle → 256 ≤ s.engine.KEYLEN.toNat → exec (.keyb b) s = .next (s.answered 0x00000000#32)) ∧
    (s.engine.PHASE = .ready → exec (.keyb b) s = .next (s.answered 0x20000000#32))

/-- R110: `SETDROP n` in `IDLE` writes `DROP` and nothing else and answers `OK`, for every 24-bit `n`; a second one
overwrites the first; in `READY` it answers `USAGE_ERROR` and changes nothing; its word is `0x03nnnnnn` and every word
with opcode 0x03 is a `SETDROP`, so it is never illegal; with no `SETDROP` since reset or `CLEAR` the count is 768; `INIT`,
failed or not, keeps it, and so does `KEYB`. -/
def Obligations.SetdropWritesTheDropCount : Prop :=
  State.reset.engine.DROP = 768#24 ∧
  (∀ s : State, ∃ t, exec .clear s = .next t ∧ t.engine.DROP = 768#24) ∧
  (∀ (s : State) (i : Instr), (i = .init ∨ ∃ b, i = .keyb b) →
    ∃ t, exec i s = .next t ∧ t.engine.DROP = s.engine.DROP) ∧
  (∀ n : BitVec 24, encode (.setdrop n) = 0x03000000#32 ||| n.setWidth 32) ∧
  (∀ cw : Word, cw.extractLsb' 24 8 = 0x03#8 → decode cw = .command (.setdrop (cw.extractLsb' 0 24))) ∧
  ∀ (s : State) (n : BitVec 24),
    (s.engine.PHASE = .idle →
      exec (.setdrop n) s = .next ⟨{ s.engine with DROP := n }, s.input, s.responses ++ [0x00000000#32]⟩ ∧
      ∀ (m : BitVec 24) (t : State), exec (.setdrop n) s = .next t →
        exec (.setdrop m) t = .next ⟨{ s.engine with DROP := m }, s.input,
          s.responses ++ [0x00000000#32, 0x00000000#32]⟩) ∧
    (s.engine.PHASE = .ready → exec (.setdrop n) s = .next (s.answered 0x20000000#32))

/-- R94 (with R96 to R99, R112, R115): `INIT` in `IDLE` with a key makes the engine hold the generator that the source's
algorithm gives that key after `DROP` discarded steps, entry by entry of `S` and with its cursor; wipes the key; keeps
`DROP`; becomes `READY`; answers `OK`. The accumulator's and the cursor's start at 0 are decision D19 of the spec (log
entry 12). -/
def Obligations.InitBuildsTheScheduledGenerator : Prop :=
  ∀ s : State, s.engine.PHASE = .idle → s.engine.KEYLEN ≠ 0#9 →
    ∃ S K : Memory,
      exec .init s = .next ⟨⟨S, (Reference.genAt s.engine.key s.engine.DROP.toNat).i,
        (Reference.genAt s.engine.key s.engine.DROP.toNat).j, K, 0#9, s.engine.DROP, .ready⟩, s.input,
        s.responses ++ [0x00000000#32]⟩ ∧
      (∀ a, S.read a = (Reference.genAt s.engine.key s.engine.DROP.toNat).S a) ∧ ∀ a, K.read a = 0#8

/-- R95: `INIT` in `IDLE` with an empty key answers `INVALID_INPUT` (code 1, data 0) and changes nothing; a following
`XORB` answers `USAGE_ERROR`; and one key byte loaded then, with nothing cleared, is enough for `INIT` to succeed. -/
def Obligations.InitWithEmptyKeyIsInvalidInput : Prop :=
  ∀ s : State, s.engine.PHASE = .idle → s.engine.KEYLEN = 0#9 →
    exec .init s = .next (s.answered 0x10000000#32) ∧
    ∀ b : Byte,
      exec (.xorb b) (s.answered 0x10000000#32) = .next ((s.answered 0x10000000#32).answered 0x20000000#32) ∧
      ∃ t u, exec (.keyb b) (s.answered 0x10000000#32) = .next t ∧ exec .init t = .next u ∧ u.engine.PHASE = .ready ∧
        u.responses = s.responses ++ [0x10000000#32, 0x00000000#32, 0x00000000#32]

/-- R102: `INIT` in `READY` answers `USAGE_ERROR` and changes nothing, whatever else the state holds. -/
def Obligations.InitOnLiveInstanceIsRefused : Prop :=
  ∀ s : State, s.engine.PHASE = .ready → exec .init s = .next (s.answered 0x20000000#32)

/-- R130: `XORB b` in `READY` makes one generator step and answers `b xor k`: `I` and `J` advance as R112 says, the two
entries of `S` they then name are exchanged and no other entry changes, nothing else changes, and `k` is looked up in
`S` as it is after the swap; in `IDLE` it answers `USAGE_ERROR` and changes nothing; its word is `0x050000bb`, and with a
reserved bit set the word is illegal. -/
def Obligations.XorbPullsOneKeystreamByte : Prop :=
  (∀ b : Byte, encode (.xorb b) = 0x05000000#32 ||| b.setWidth 32) ∧
  (∀ cw : Word, cw.extractLsb' 24 8 = 0x05#8 → cw.extractLsb' 8 16 ≠ 0#16 →
    ∀ s : State, step (offerWord s cw) = .next (s.answered 0x30000000#32)) ∧
  ∀ (s : State) (b I J : Byte), I = s.engine.I + 1#8 → J = s.engine.J + s.engine.S.read I →
    (s.engine.PHASE = .ready → ∃ S : Memory,
      exec (.xorb b) s = .next ⟨{ s.engine with S := S, I := I, J := J }, s.input,
        s.responses ++ [byteResponse (b ^^^ S.read (S.read I + S.read J))]⟩ ∧
      ∀ a, S.read a =
        if a = I then s.engine.S.read J else if a = J then s.engine.S.read I else s.engine.S.read a) ∧
    (s.engine.PHASE = .idle → exec (.xorb b) s = .next (s.answered 0x20000000#32))

/-- R131: the data byte does not feed back: `XORB` with any two bytes leaves the same engine, and its two responses
differ by exactly the difference of the bytes. -/
def Obligations.XorbStateIgnoresTheData : Prop :=
  ∀ s : State, s.engine.PHASE = .ready → ∃ (e : Engine) (k : Byte), ∀ b : Byte,
    exec (.xorb b) s = .next ⟨e, s.input, s.responses ++ [byteResponse (b ^^^ k)]⟩

/-- R148 and R29: `RDSTAT` in either phase answers `OK` with `PHASE` at bit 16 and `KEYLEN` at bits 8..0, zeros
elsewhere, and changes nothing; in every `READY` state a run reaches the word is `0x00010000`; its word is `0x06000000`,
and with any operand bit set the word is illegal. -/
def Obligations.RdstatReportsPhaseAndKeylen : Prop :=
  encode .rdstat = 0x06000000#32 ∧
  (∀ cw : Word, cw.extractLsb' 24 8 = 0x06#8 → cw.extractLsb' 0 24 ≠ 0#24 →
    ∀ s : State, step (offerWord s cw) = .next (s.answered 0x30000000#32)) ∧
  ∀ s : State, ∃ r, exec .rdstat s = .next (s.answered r) ∧ r.extractLsb' 0 9 = s.engine.KEYLEN ∧
    r.extractLsb' 9 7 = 0#7 ∧ (r.extractLsb' 16 1 = 1#1 ↔ s.engine.PHASE = .ready) ∧ r.extractLsb' 17 15 = 0#15 ∧
    (s.Inv → s.engine.PHASE = .ready → r = 0x00010000#32)

/-- R150 and R27: `RDDROP` in either phase answers `OK` with the drop count and changes nothing; `INIT` keeps the drop
count, and so does every command on a live instance that does not destroy it, so in `READY` it is the count the
instance was built with; its word is `0x07000000`, and with any operand bit set the word is illegal. -/
def Obligations.RddropReportsTheDropCount : Prop :=
  encode .rddrop = 0x07000000#32 ∧
  (∀ cw : Word, cw.extractLsb' 24 8 = 0x07#8 → cw.extractLsb' 0 24 ≠ 0#24 →
    ∀ s : State, step (offerWord s cw) = .next (s.answered 0x30000000#32)) ∧
  (∀ s : State, ∃ r, exec .rddrop s = .next (s.answered r) ∧ r.toNat = s.engine.DROP.toNat) ∧
  (∀ s : State, ∃ t, exec .init s = .next t ∧ t.engine.DROP = s.engine.DROP) ∧
  ∀ (s : State) (i : Instr), s.engine.PHASE = .ready → i ≠ .clear →
    ∃ t, exec i s = .next t ∧ t.engine.DROP = s.engine.DROP ∧ t.engine.PHASE = .ready

/-! ### Errors and phases -/

/-- R161: a command that answers an error changes no item of the engine's state and records nothing: the one thing that
differs is the response, whose data is 0. -/
def Obligations.ErrorsChangeNothing : Prop :=
  ∀ (s : State) (cw : Word), ∃ t r, step (offerWord s cw) = .next t ∧ t.responses = s.responses ++ [r] ∧
    t.input = s.input ∧ (r.extractLsb' 28 4 ≠ 0#4 → t.engine = s.engine ∧ r.extractLsb' 0 28 = 0#28)

/-- R160: the complete list of response codes with the cause of each, for every word in every state. -/
def Obligations.ResponseCodesAndTheirCauses : Prop :=
  ∀ (s : State) (cw : Word), ∃ t r, step (offerWord s cw) = .next t ∧ t.responses = s.responses ++ [r] ∧
    (r.extractLsb' 28 4).toNat ≤ 3 ∧ r.extractLsb' 24 4 = 0#4 ∧
    (r.extractLsb' 28 4 = 1#4 ↔ decode cw = .command .init ∧ s.engine.PHASE = .idle ∧ s.engine.KEYLEN = 0#9) ∧
    (r.extractLsb' 28 4 = 2#4 ↔
      (s.engine.PHASE = .idle ∧ ∃ b, decode cw = .command (.xorb b)) ∨
      (s.engine.PHASE = .ready ∧ ((∃ b, decode cw = .command (.keyb b)) ∨ (∃ n, decode cw = .command (.setdrop n)) ∨
        decode cw = .command .init))) ∧
    (r.extractLsb' 28 4 = 3#4 ↔ ∀ i, decode cw ≠ .command i) ∧
    (r.extractLsb' 28 4 ≠ 0#4 → r.extractLsb' 0 24 = 0#24)

/-- R163: which command each phase allows: `USAGE_ERROR` with no change exactly where the table refuses the command. -/
def Obligations.PhasePermissionTable : Prop :=
  ∀ (s : State) (i : Instr), ∃ t r, exec i s = .next t ∧ t.responses = s.responses ++ [r] ∧
    (r = 0x20000000#32 ↔ phaseAllows i s.engine.PHASE = false) ∧
    (r = 0x20000000#32 → t.engine = s.engine)

/-- R165: the order of checking. A word that is no command answers `ILLEGAL_CMD` whatever the phase and `KEYLEN` are;
`INIT` in `READY` answers `USAGE_ERROR` also with an empty key; only then is the key looked at. Its first example,
`INIT` with bit 0 set, is the word `0x04000001`. -/
def Obligations.ErrorPriority : Prop :=
  ∀ s : State,
    (∀ cw, (∀ i, cw ≠ encode i) → step (offerWord s cw) = .next (s.answered 0x30000000#32)) ∧
    step (offerWord s 0x04000001#32) = .next (s.answered 0x30000000#32) ∧
    (s.engine.PHASE = .ready → step (offerWord s 0x04000000#32) = .next (s.answered 0x20000000#32)) ∧
    (s.engine.PHASE = .idle → s.engine.KEYLEN = 0#9 →
      step (offerWord s 0x04000000#32) = .next (s.answered 0x10000000#32))

/-- R33: the complete transition table of `PHASE`, for every action of the host: the engine is `READY` afterwards
exactly when a command that is not `CLEAR` came in `READY`, or `INIT` with a key in `IDLE`. -/
def Obligations.PhaseTransitionTable : Prop :=
  ∀ (s : State) (a : HostAction) (rest : List HostAction), s.input = a :: rest →
    ∃ t, step s = .next t ∧
      (t.engine.PHASE = .ready ↔ ∃ cw, a = .command cw ∧
        ((s.engine.PHASE = .ready ∧ decode cw ≠ .command .clear) ∨
          (s.engine.PHASE = .idle ∧ decode cw = .command .init ∧ s.engine.KEYLEN ≠ 0#9)))

/-- R36, the write columns of the access table, in one direction: an item of state is changed only by the commands of
its column. What each command writes is stated of the command itself, above. -/
def Obligations.AccessTableWrites : Prop :=
  ∀ (s : State) (i : Instr), ∃ t, exec i s = .next t ∧ t.input = s.input ∧
    ((t.engine.S ≠ s.engine.S ∨ t.engine.I ≠ s.engine.I ∨ t.engine.J ≠ s.engine.J) →
      i = .clear ∨ i = .init ∨ ∃ b, i = .xorb b) ∧
    ((t.engine.KEY ≠ s.engine.KEY ∨ t.engine.KEYLEN ≠ s.engine.KEYLEN) → i = .clear ∨ i = .init ∨ ∃ b, i = .keyb b) ∧
    (t.engine.DROP ≠ s.engine.DROP → i = .clear ∨ ∃ n, i = .setdrop n) ∧
    (t.engine.PHASE ≠ s.engine.PHASE → i = .clear ∨ i = .init)

/-- R134: on a live instance no word but `XORB` and `CLEAR` disturbs anything: `RDSTAT`, `RDDROP` and every word that
fails leave the whole engine as it was. -/
def Obligations.OnlyXorbAndClearTouchALiveInstance : Prop :=
  ∀ (s : State) (cw : Word), s.engine.PHASE = .ready → decode cw ≠ .command .clear →
    (∀ b, decode cw ≠ .command (.xorb b)) → ∃ r, step (offerWord s cw) = .next (s.answered r)

/-- R152: two engines that agree on `KEYLEN`, `DROP` and `PHASE` give the same response to every word but an `XORB`,
whatever `S`, `I`, `J` and `KEY` hold: no other command is a window onto them. -/
def Obligations.SecretsShowOnlyThroughXorb : Prop :=
  ∀ (s u : State) (cw : Word), s.engine.KEYLEN = u.engine.KEYLEN → s.engine.DROP = u.engine.DROP →
    s.engine.PHASE = u.engine.PHASE → (∀ b, decode cw ≠ .command (.xorb b)) →
    ∃ s' u' r, step (offerWord s cw) = .next s' ∧ step (offerWord u cw) = .next u' ∧
      s'.responses = s.responses ++ [r] ∧ u'.responses = u.responses ++ [r]

/-! ### Key schedule and keystream -/

/-- R100: for every key `S` is a permutation of 0..255, and it is a function of the loaded key bytes and their number
alone. -/
def Obligations.ScheduleIsAPermutationOfTheKeyAlone : Prop :=
  ∀ (K L : Memory) (n : BitVec 9), n ≠ 0#9 →
    (ksa K n).isPermutation ∧ ((∀ a : Byte, a.toNat < n.toNat → K.read a = L.read a) → ksa K n = ksa L n)

/-- R101, in the direction that holds: keys that agree at `idx mod KEYLEN` for every `idx` give the same permutation,
though they differ in length; so a key written out `m` times in a row gives the same one. (The other direction of R101's
"exactly when" is not claimed: log entry 8.) -/
def Obligations.EquivalentKeysGiveTheSameSchedule : Prop :=
  (∀ (K L : Memory) (k l : BitVec 9), k ≠ 0#9 → l ≠ 0#9 →
    (∀ idx < 256, K.read (BitVec.ofNat 8 (idx % k.toNat)) = L.read (BitVec.ofNat 8 (idx % l.toNat))) →
    ksa K k = ksa L l) ∧
  ∀ (K L : Memory) (k : BitVec 9) (m : Nat), k ≠ 0#9 → 1 ≤ m → m * k.toNat ≤ 256 →
    (∀ a < m * k.toNat, L.read (BitVec.ofNat 8 a) = K.read (BitVec.ofNat 8 (a % k.toNat))) →
    ksa L (BitVec.ofNat 9 (m * k.toNat)) = ksa K k

/-- R112 and R113: one generator step. `I` always advances by one; `J` stays exactly when the entry the new `I` names is
0; the two entries are exchanged; their sum is the same before and after the swap; the output is looked up after the
swap; and when the new `I` and `J` are equal the swap changes nothing. -/
def Obligations.GeneratorStepDetails : Prop :=
  ∀ (e : Engine) (I J : Byte), I = e.I + 1#8 → J = e.J + e.S.read I →
    (prgaStep e).1.I = I ∧ (prgaStep e).1.J = J ∧ (J = e.J ↔ e.S.read I = 0#8) ∧
    (∀ a, (prgaStep e).1.S.read a = if a = I then e.S.read J else if a = J then e.S.read I else e.S.read a) ∧
    (prgaStep e).1.S.read I + (prgaStep e).1.S.read J = e.S.read I + e.S.read J ∧
    (prgaStep e).2 = (prgaStep e).1.S.read (e.S.read I + e.S.read J) ∧
    (I = J → (∀ a, (prgaStep e).1.S.read a = e.S.read a) ∧ (prgaStep e).2 = e.S.read (e.S.read I + e.S.read I)) ∧
    (e.S.isPermutation → (prgaStep e).1.S.isPermutation)

/-- R117 (a): after a successful `INIT` the cursor's first index is `DROP mod 256`. -/
def Obligations.CursorAfterDiscard : Prop :=
  ∀ s : State, s.engine.PHASE = .idle → s.engine.KEYLEN ≠ 0#9 →
    ∃ t, exec .init s = .next t ∧ t.engine.I.toNat = s.engine.DROP.toNat % 256

/-- R117 (b): the keystream with drop count `n` is the drop-0 keystream of the same key with its first `n` bytes
removed. Two engines that differ in `DROP` alone are built, and `m` bytes are pulled from the one, `n + m` from the
other. -/
def Obligations.DropCountRemovesTheFirstBytes : Prop :=
  ∀ (s : State) (n : BitVec 24) (m : Nat), s.engine.PHASE = .idle → s.engine.KEYLEN ≠ 0#9 →
    ∃ t u : State, ∃ ks : List Byte, ks.length = n.toNat + m ∧
      run (1 + (n.toNat + m)) ⟨{ s.engine with DROP := 0#24 },
        commandsOf (.init :: List.replicate (n.toNat + m) (.xorb 0#8)), s.responses⟩ = .next t ∧
      t.responses = s.responses ++ 0x00000000#32 :: ks.map byteResponse ∧
      run (1 + m) ⟨{ s.engine with DROP := n }, commandsOf (.init :: List.replicate m (.xorb 0#8)), s.responses⟩
        = .next u ∧
      u.responses = s.responses ++ 0x00000000#32 :: (ks.drop n.toNat).map byteResponse

/-- R93: `LOADKEY` of a key of any length, on an engine with no key loaded, answers `OK` to each byte and leaves exactly
the first 256 bytes of it in `KEY`, `KEYLEN` saying how many; nothing else of the engine changes. -/
def Obligations.KeyBytesBeyondThe256thAreDropped : Prop :=
  ∀ (s : State) (key : List Byte), s.engine.PHASE = .idle → s.engine.KEYLEN = 0#9 →
    ∃ K : Memory, run key.length (s.given (pseudoLoadKey key)) =
        .next ⟨{ s.engine with KEY := K, KEYLEN := BitVec.ofNat 9 (min key.length 256) }, [],
          s.responses ++ List.replicate key.length 0x00000000#32⟩ ∧
      ∀ a : Byte, K.read a = if a.toNat < key.length then key.getD a.toNat 0#8 else s.engine.KEY.read a

/-! ### Transforming buffers -/

/-- R132 and R133: `XFORM` of any buffer on a live instance: one response byte per data byte, in order, output byte `k`
being data byte `k` xor keystream byte `k`; the keystream bytes and the engine afterwards are the same whatever the data
is; the empty buffer gives no response and changes nothing. -/
def Obligations.XformXorsTheBufferWithTheKeystream : Prop :=
  ∀ (s : State) (n : Nat), s.engine.PHASE = .ready →
    ∃ (e : Engine) (ks : List Byte), ks.length = n ∧ e.PHASE = .ready ∧ (n = 0 → e = s.engine) ∧
      ∀ data : List Byte, data.length = n →
        run n (s.given (pseudoXform data)) =
          .next ⟨e, [], s.responses ++ (List.zipWith (fun d k => d ^^^ k) data ks).map byteResponse⟩

/-- R134: an `XFORM` continues the keystream where the one before it left off: two buffers given one after the other end
in the same state, with the same responses, as the two joined. -/
def Obligations.XformContinuesWhereTheLastOneEnded : Prop :=
  ∀ (s : State) (first second : List Byte), s.engine.PHASE = .ready →
    ∃ t u, run first.length (s.given (pseudoXform first)) = .next t ∧
      run second.length (t.given (pseudoXform second)) = .next u ∧
      run (first.length + second.length) (s.given (pseudoXform (first ++ second))) = .next u ∧
      u.responses.length = s.responses.length + first.length + second.length

/-- The engine is the source's cipher (R188, R82, R132; R93 for keys over 256 bytes): from any state at all, `NEWINST`
with any non-empty key of any length and any drop count (the default 768 when none is given), then `XFORM` of any
buffer, answers `OK` to every command of `NEWINST` and then the bytes that the source's algorithm gives. The accumulator's and
the cursor's start at 0 are decision D19 of the spec (log entry 12). -/
def Obligations.NewInstanceTransformsAsTheSource : Prop :=
  ∀ (s : State) (key data : List Byte) (drop : Option DropCount), key ≠ [] →
    ∃ e : Engine, e.PHASE = .ready ∧
      run ((pseudoNewInst drop key).length + data.length) (s.given (pseudoNewInst drop key ++ pseudoXform data)) =
        .next ⟨e, [], s.responses ++ List.replicate (pseudoNewInst drop key).length 0x00000000#32 ++
          (Reference.transform key (drop.getD 768#24).toNat data).map byteResponse⟩

/-- R135, the involution law: what one instance makes of a buffer, a second instance built from an equivalent key (R101)
and the same drop count turns back into the buffer, for every buffer, the empty one included, whatever states the two
engines were in before. -/
def Obligations.SecondInstanceInvertsTheFirst : Prop :=
  ∀ (a b : State) (key again data : List Byte) (drop : Option DropCount), key ≠ [] → again ≠ [] →
    (∀ idx < 256, key.getD (idx % key.length) 0#8 = again.getD (idx % again.length) 0#8) →
    ∃ (cipher : List Byte) (t u : State), cipher.length = data.length ∧
      run ((pseudoNewInst drop key).length + data.length) (a.given (pseudoNewInst drop key ++ pseudoXform data))
        = .next t ∧
      t.responses = a.responses ++ List.replicate (pseudoNewInst drop key).length 0x00000000#32 ++
        cipher.map byteResponse ∧
      run ((pseudoNewInst drop again).length + data.length) (b.given (pseudoNewInst drop again ++ pseudoXform cipher))
        = .next u ∧
      u.responses = b.responses ++ List.replicate (pseudoNewInst drop again).length 0x00000000#32 ++
        data.map byteResponse

/-! ### Invariants and what the host can tell -/

/-- The invariant holds right after reset. -/
def Obligations.ResetSatisfiesTheInvariant : Prop := State.reset.Inv

/-- Every step from a state that meets the invariant, reached by a run or not, answers a next state that meets it: both
memories in canonical form (log entry 6), `KEYLEN` at most 256 and `KEY` zero above it (R25, R26), `S` a permutation
while `READY` (R22) with the key wiped (R26), `S` and the cursor zero while `IDLE` (R22), every response in the shape of
R79. -/
def Obligations.StepKeepsTheInvariant : Prop :=
  ∀ s : State, s.Inv → ∃ t, step s = .next t ∧ t.Inv

/-- R35: what `S`, `I`, `J` and the entries of `KEY` not yet loaded hold in `IDLE` cannot be told at the ports: two idle
engines that differ in nothing else give the same responses to every sequence of actions of the host, for ever. -/
def Obligations.IdleContentsCannotBeObserved : Prop :=
  ∀ (s u : State) (n : Nat), s.engine.PHASE = .idle → u.engine.PHASE = .idle →
    s.engine.KEYLEN = u.engine.KEYLEN → s.engine.DROP = u.engine.DROP →
    (∀ a : Byte, a.toNat < s.engine.KEYLEN.toNat → s.engine.KEY.read a = u.engine.KEY.read a) →
    s.input = u.input → s.responses = u.responses →
    ∃ s' u', run n s = .next s' ∧ run n u = .next u' ∧ s'.responses = u'.responses

/-! ### The host's side of the port -/

/-- R79: every code and data field can be read back from the response word, and a word is read back only if the engine
could have produced it. -/
def Obligations.ResponseWordReadsBack : Prop :=
  (∀ (c : Code) (d : BitVec 24), (c ≠ .ok → d = 0#24) → readResponse (responseWord c d) = some (c, d)) ∧
  ∀ w c d, readResponse w = some (c, d) → w = responseWord c d ∧ legalResponse w

/-- R81: a line assembles exactly when its operand is present where the format asks for one and within its range, to the
command of its mnemonic with that operand; an operand out of range is refused, never truncated. -/
def Obligations.LineAssemblesExactlyWhenItsOperandFits : Prop :=
  ∀ l : AsmLine,
    ((assembleLine l).isSome ↔
      (l.mnemonic.format = .n ∧ l.operand = none) ∨ (l.mnemonic.format = .b ∧ ∃ b ≤ 255, l.operand = some b) ∨
        (l.mnemonic.format = .w ∧ ∃ n ≤ 16777215, l.operand = some n)) ∧
    ∀ i, assembleLine l = some i → i.mnemonic = l.mnemonic ∧ (encode i).toNat % 2 ^ 24 = l.operand.getD 0
end

