-- ==== Sys2Proof/Laws/Decode.lean ====
section
/-! SUPPORT. The fields of a command word as numbers, and that a word is its fields. -/

namespace Sys2Proof

theorem opField_toNat (cw : Word) : (opField cw).toNat = cw.toNat / 2 ^ 24 := by
  have := cw.isLt
  simp only [opField, BitVec.extractLsb'_toNat, Nat.shiftRight_eq_div_pow]
  omega

theorem argField_toNat (cw : Word) : (argField cw).toNat = cw.toNat % 2 ^ 24 := by
  simp [argField, BitVec.extractLsb'_toNat]

theorem byteField_toNat (cw : Word) : (byteField cw).toNat = cw.toNat % 2 ^ 8 := by
  simp [byteField, BitVec.extractLsb'_toNat]

theorem reservedField_toNat (cw : Word) : (reservedField cw).toNat = cw.toNat / 2 ^ 8 % 2 ^ 16 := by
  simp [reservedField, BitVec.extractLsb'_toNat, Nat.shiftRight_eq_div_pow]

theorem append_toNat {m n : Nat} (x : BitVec m) (y : BitVec n) : (x ++ y).toNat = x.toNat * 2 ^ n + y.toNat := by
  rw [BitVec.toNat_append, Nat.shiftLeft_eq, Nat.mul_comm, ← Nat.two_pow_add_eq_or_of_lt y.isLt]

theorem encodeN_toNat (op : BitVec 8) : (encodeN op).toNat = op.toNat * 2 ^ 24 := by
  rw [encodeN, append_toNat, BitVec.toNat_ofNat]; simp

theorem encodeB_toNat (op : BitVec 8) (b : Byte) : (encodeB op b).toNat = op.toNat * 2 ^ 24 + b.toNat := by
  rw [encodeB, append_toNat, append_toNat, BitVec.toNat_ofNat]; omega

theorem encodeW_toNat (op : BitVec 8) (n : BitVec 24) : (encodeW op n).toNat = op.toNat * 2 ^ 24 + n.toNat :=
  append_toNat op n

/-- A word is its opcode and its operand field. -/
theorem eq_encodeW_fields (cw : Word) : cw = encodeW (opField cw) (argField cw) := by
  apply BitVec.eq_of_toNat_eq
  rw [encodeW_toNat, opField_toNat, argField_toNat]
  omega

/-- A word with no operand bit set is its opcode in format N. -/
theorem eq_encodeN_of_argField (cw : Word) (h : argField cw = 0#24) : cw = encodeN (opField cw) := by
  have h := congrArg BitVec.toNat h
  apply BitVec.eq_of_toNat_eq
  rw [argField_toNat, BitVec.toNat_ofNat] at h
  rw [encodeN_toNat, opField_toNat]
  omega

/-- A word with no reserved bit of format B set is its opcode and its byte. -/
theorem eq_encodeB_of_reservedField (cw : Word) (h : reservedField cw = 0#16) :
    cw = encodeB (opField cw) (byteField cw) := by
  have h := congrArg BitVec.toNat h
  apply BitVec.eq_of_toNat_eq
  rw [reservedField_toNat, BitVec.toNat_ofNat] at h
  rw [encodeB_toNat, opField_toNat, byteField_toNat]
  omega

@[simp] theorem opField_encodeN (op : BitVec 8) : opField (encodeN op) = op := by
  apply BitVec.eq_of_toNat_eq; rw [opField_toNat, encodeN_toNat]; omega
@[simp] theorem argField_encodeN (op : BitVec 8) : argField (encodeN op) = 0#24 := by
  apply BitVec.eq_of_toNat_eq; rw [argField_toNat, encodeN_toNat, BitVec.toNat_ofNat]; omega
@[simp] theorem opField_encodeB (op : BitVec 8) (b : Byte) : opField (encodeB op b) = op := by
  apply BitVec.eq_of_toNat_eq; rw [opField_toNat, encodeB_toNat]; have := b.isLt; omega
@[simp] theorem reservedField_encodeB (op : BitVec 8) (b : Byte) : reservedField (encodeB op b) = 0#16 := by
  apply BitVec.eq_of_toNat_eq; rw [reservedField_toNat, encodeB_toNat, BitVec.toNat_ofNat]; have := b.isLt; omega
@[simp] theorem byteField_encodeB (op : BitVec 8) (b : Byte) : byteField (encodeB op b) = b := by
  apply BitVec.eq_of_toNat_eq; rw [byteField_toNat, encodeB_toNat]; have := b.isLt; omega
@[simp] theorem opField_encodeW (op : BitVec 8) (n : BitVec 24) : opField (encodeW op n) = op := by
  apply BitVec.eq_of_toNat_eq; rw [opField_toNat, encodeW_toNat]; have := n.isLt; omega
@[simp] theorem argField_encodeW (op : BitVec 8) (n : BitVec 24) : argField (encodeW op n) = n := by
  apply BitVec.eq_of_toNat_eq; rw [argField_toNat, encodeW_toNat]; have := n.isLt; omega

/-- A mask of the bits from `k` up keeps the word's multiple of `2 ^ k`. -/
theorem and_highMask_toNat (cw : Word) (k : Nat) :
    (cw &&& (BitVec.allOnes 32 <<< k)).toNat = cw.toNat / 2 ^ k * 2 ^ k := by
  have h : cw &&& (BitVec.allOnes 32 <<< k) = (cw >>> k) <<< k := by
    apply BitVec.eq_of_getLsbD_eq
    intro i hi
    simp only [BitVec.getLsbD_and, BitVec.getLsbD_shiftLeft, BitVec.getLsbD_ushiftRight, BitVec.getLsbD_allOnes, hi,
      decide_true, Bool.true_and]
    by_cases hik : i < k
    · simp [hik]
    · have h2 : k + (i - k) = i := by omega
      have h3 : i - k < 32 := by omega
      simp [hik, h2, h3]
  rw [h, BitVec.toNat_shiftLeft, BitVec.toNat_ushiftRight, Nat.shiftRight_eq_div_pow, Nat.shiftLeft_eq,
    Nat.mod_eq_of_lt (lt_of_le_of_lt (Nat.div_mul_le_self _ _) cw.isLt)]

/-- The mask of format N asks for the opcode and no operand bit. -/
theorem and_maskN_eq (cw : Word) (op : BitVec 8) :
    cw &&& 0xFFFFFFFF#32 = encodeN op ↔ opField cw = op ∧ argField cw = 0#24 := by
  have hm : 0xFFFFFFFF#32 = BitVec.allOnes 32 := by decide
  rw [hm, BitVec.and_allOnes]
  constructor
  · rintro rfl; simp
  · rintro ⟨rfl, h⟩; exact eq_encodeN_of_argField cw h

/-- The mask of format B asks for the opcode and no reserved bit. -/
theorem and_maskB_eq (cw : Word) (op : BitVec 8) :
    cw &&& 0xFFFFFF00#32 = encodeB op 0#8 ↔ opField cw = op ∧ reservedField cw = 0#16 := by
  have hm : 0xFFFFFF00#32 = BitVec.allOnes 32 <<< 8 := by decide
  rw [hm, ← BitVec.toNat_inj, and_highMask_toNat, encodeB_toNat, ← BitVec.toNat_inj, ← BitVec.toNat_inj, opField_toNat,
    reservedField_toNat, BitVec.toNat_ofNat, BitVec.toNat_ofNat]
  have := cw.isLt
  omega

/-- The mask of format W asks for the opcode. -/
theorem and_maskW_eq (cw : Word) (op : BitVec 8) :
    cw &&& 0xFF000000#32 = encodeW op 0#24 ↔ opField cw = op := by
  have hm : 0xFF000000#32 = BitVec.allOnes 32 <<< 24 := by decide
  rw [hm, ← BitVec.toNat_inj, and_highMask_toNat, encodeW_toNat, ← BitVec.toNat_inj, opField_toNat, BitVec.toNat_ofNat]
  omega

/-- Format N decodes to its command or to a word with a reserved bit set. -/
theorem decodeN_eq_command (i j : Instr) (cw : Word) : decodeN i cw = .command j ↔ argField cw = 0#24 ∧ i = j := by
  unfold decodeN; split_ifs with h <;> simp [h]

/-- Format B decodes to its command with the word's byte or to a word with a reserved bit set. -/
theorem decodeB_eq_command (i : Byte → Instr) (j : Instr) (cw : Word) :
    decodeB i cw = .command j ↔ reservedField cw = 0#16 ∧ i (byteField cw) = j := by
  unfold decodeB; split_ifs with h <;> simp [h]

end Sys2Proof
end

