-- ==== Sys2Proof/Laws/Memory.lean ====
section
/-! SUPPORT. The memory laws: what a read sees after each operation, that each operation keeps the canonical form, and
that two canonical memories which read alike are the same data. The read laws hold of every list, canonical or not. -/

namespace Sys2Proof.Machine

/-! ### Reads -/

theorem Memory.lookup_erase (m : Memory) (a b : Nat) :
    Memory.lookup (m.erase a) b = if b = a then Memory.unlisted else m.lookup b := by
  induction m with
  | nil => simp [Memory.erase, Memory.lookup]
  | cons c m ih => simp only [Memory.erase, Memory.lookup]; split_ifs <;> simp_all [Memory.lookup]

/-- An index that is not listed anywhere in `m` reads as inserted. -/
theorem Memory.lookup_insert (m : Memory) (a b : Nat) (v : Byte) (h : ∀ c ∈ m, c.1 ≠ a) :
    Memory.lookup (m.insert a v) b = if b = a then v else m.lookup b := by
  induction m with
  | nil => simp [Memory.insert, Memory.lookup, eq_comm]
  | cons c m ih =>
    obtain ⟨hc, hm⟩ := List.forall_mem_cons.1 h
    have ih := ih hm
    obtain ⟨k, w⟩ := c
    have hka : k ≠ a := hc
    by_cases hlt : k < a
    · simp only [Memory.insert, if_pos hlt, Memory.lookup, ih]
      by_cases hkb : k = b
      · rw [if_pos hkb, if_pos hkb, if_neg (hkb ▸ hka)]
      · rw [if_neg hkb, if_neg hkb]
    · simp only [Memory.insert, if_neg hlt, Memory.lookup]
      by_cases hab : a = b
      · rw [if_pos hab, if_pos hab.symm]
      · rw [if_neg hab, if_neg (Ne.symm hab)]

theorem Memory.mem_erase (m : Memory) (a : Nat) (c : Host.Cell) : c ∈ m.erase a ↔ c ∈ m ∧ c.1 ≠ a := by
  induction m with
  | nil => simp [Memory.erase]
  | cons d m ih =>
    simp only [Memory.erase]
    split_ifs with hd
    · rw [ih]; constructor
      · rintro ⟨h, hne⟩; exact ⟨List.mem_cons_of_mem _ h, hne⟩
      · rintro ⟨h, hne⟩
        rcases List.mem_cons.1 h with rfl | h
        · exact absurd hd hne
        · exact ⟨h, hne⟩
    · rw [List.mem_cons, ih, List.mem_cons]; constructor
      · rintro (rfl | ⟨h, hne⟩)
        · exact ⟨.inl rfl, hd⟩
        · exact ⟨.inr h, hne⟩
      · rintro ⟨rfl | h, hne⟩
        · exact .inl rfl
        · exact .inr ⟨h, hne⟩

theorem Memory.mem_insert (m : Memory) (a : Nat) (v : Byte) (c : Host.Cell) :
    c ∈ m.insert a v ↔ c = (a, v) ∨ c ∈ m := by
  induction m with
  | nil => simp [Memory.insert]
  | cons d m ih => simp only [Memory.insert]; split_ifs <;> simp [ih, or_left_comm]

/-- A read after a write: the entry written, and every other entry as before (R55). -/
theorem Memory.read_write (m : Memory) (a v b : Byte) :
    Memory.read (m.write a v) b = if b = a then v else m.read b := by
  have hn : ∀ c ∈ Memory.erase m a.toNat, c.1 ≠ a.toNat := fun c hc => ((Memory.mem_erase m _ c).1 hc).2
  have hba : b.toNat = a.toNat ↔ b = a := BitVec.toNat_inj
  unfold Memory.read Memory.write
  by_cases hv : v = Memory.unlisted
  · rw [if_pos hv, Memory.lookup_erase]
    simp only [hba, hv]
  · rw [if_neg hv, Memory.lookup_insert _ _ _ _ hn, Memory.lookup_erase]
    simp only [hba]
    split_ifs <;> rfl

@[simp] theorem Memory.read_write_self (m : Memory) (a v : Byte) : Memory.read (m.write a v) a = v := by
  rw [Memory.read_write, if_pos rfl]

theorem Memory.read_write_of_ne (m : Memory) {a b : Byte} (v : Byte) (h : b ≠ a) :
    Memory.read (m.write a v) b = m.read b := by
  rw [Memory.read_write, if_neg h]

@[simp] theorem Memory.read_nil (a : Byte) : Memory.read [] a = 0#8 := rfl

@[simp] theorem Memory.read_zeros (a : Byte) : Memory.zeros.read a = 0#8 := rfl

/-- The swap exchanges two entries and leaves every other one (R7). -/
theorem Memory.read_swap (m : Memory) (a b x : Byte) :
    Memory.read (m.swap a b) x = if x = a then m.read b else if x = b then m.read a else m.read x := by
  simp only [Memory.swap, Memory.read_write]
  split_ifs with hb ha <;> simp_all

theorem Memory.lookup_ramp (n k a : Nat) :
    Memory.lookup ((List.range' k n).map fun i => (i, BitVec.ofNat 8 i)) a =
      if k ≤ a ∧ a < k + n then BitVec.ofNat 8 a else 0#8 := by
  induction n generalizing k with
  | zero => rw [if_neg (by omega)]; rfl
  | succ n ih =>
    rw [List.range'_succ, List.map_cons, Memory.lookup, ih]
    by_cases h : k = a
    · subst h; rw [if_pos rfl, if_pos (by omega)]
    · rw [if_neg h]
      by_cases h2 : k + 1 ≤ a ∧ a < k + 1 + n
      · rw [if_pos h2, if_pos (by omega)]
      · rw [if_neg h2, if_neg (by omega)]

/-- The identity permutation reads as its index (R97). -/
@[simp] theorem Memory.read_identity (a : Byte) : identityMemory.read a = a := by
  rw [Memory.read, identityMemory, Memory.lookup_ramp]
  split_ifs with h
  · simp
  · have ha : a.toNat = 0 := by have := a.isLt; omega
    exact (BitVec.eq_of_toNat_eq ha).symm

/-! ### The canonical form -/

theorem Memory.wf_nil : Memory.wf [] := ⟨List.Pairwise.nil, by simp⟩

theorem Memory.wf_zeros : Memory.zeros.wf := Memory.wf_nil

theorem Memory.wf_cons {k : Nat} {v : Byte} {m : Memory} :
    Memory.wf ((k, v) :: m) ↔ ((∀ c ∈ m, k < c.1) ∧ k < 256 ∧ v ≠ Memory.unlisted) ∧ Memory.wf m := by
  simp only [Memory.wf, List.map_cons, List.pairwise_cons, List.mem_map, forall_exists_index, and_imp,
    forall_apply_eq_imp_iff₂, List.forall_mem_cons]
  tauto

theorem Memory.wf_erase {m : Memory} (a : Nat) (h : m.wf) : Memory.wf (m.erase a) := by
  induction m with
  | nil => exact Memory.wf_nil
  | cons c m ih =>
    obtain ⟨k, v⟩ := c
    obtain ⟨⟨hk, hv⟩, hm⟩ := Memory.wf_cons.1 h
    simp only [Memory.erase]
    split_ifs
    · exact ih hm
    · exact Memory.wf_cons.2 ⟨⟨fun c hc => hk c ((Memory.mem_erase m a c).1 hc).1, hv⟩, ih hm⟩

theorem Memory.wf_insert {m : Memory} {a : Nat} {v : Byte} (h : m.wf) (ha : a < 256) (hv : v ≠ Memory.unlisted)
    (hn : ∀ c ∈ m, c.1 ≠ a) : Memory.wf (m.insert a v) := by
  induction m with
  | nil => exact Memory.wf_cons.2 ⟨⟨by simp, ha, hv⟩, Memory.wf_nil⟩
  | cons c m ih =>
    obtain ⟨k, w⟩ := c
    obtain ⟨⟨hk, hw⟩, hm⟩ := Memory.wf_cons.1 h
    obtain ⟨hka, hma⟩ := List.forall_mem_cons.1 hn
    simp only [Memory.insert]
    split_ifs with hlt
    · refine Memory.wf_cons.2 ⟨⟨fun c hc => ?_, hw⟩, ih hm hma⟩
      rcases (Memory.mem_insert m a v c).1 hc with rfl | hc
      · exact hlt
      · exact hk c hc
    · have hak : a < k := by simp only at hka; omega
      refine Memory.wf_cons.2 ⟨⟨fun c hc => ?_, ha, hv⟩, h⟩
      rcases List.mem_cons.1 hc with rfl | hc
      · exact hak
      · exact hak.trans (hk c hc)

/-- A write keeps the canonical form. -/
theorem Memory.wf_write {m : Memory} (a v : Byte) (h : m.wf) : Memory.wf (m.write a v) := by
  simp only [Memory.write]
  split_ifs with hv
  · exact Memory.wf_erase _ h
  · exact Memory.wf_insert (Memory.wf_erase _ h) a.isLt hv fun c hc => ((Memory.mem_erase m _ c).1 hc).2

/-- A swap keeps the canonical form. -/
theorem Memory.wf_swap {m : Memory} (a b : Byte) (h : m.wf) : Memory.wf (m.swap a b) :=
  Memory.wf_write _ _ (Memory.wf_write _ _ h)

theorem Memory.wf_identity : identityMemory.wf := by
  constructor
  · simpa [identityMemory, Function.comp_def] using List.pairwise_lt_range'
  · simp only [identityMemory, List.mem_map, List.mem_range'_1, forall_exists_index, and_imp]
    rintro c i h1 h2 rfl
    refine ⟨by simp only; omega, fun h => ?_⟩
    have := congrArg BitVec.toNat h
    simp only [BitVec.toNat_ofNat, Memory.unlisted] at this
    omega

theorem Memory.lookup_of_forall_lt {m : Memory} {a : Nat} (h : ∀ c ∈ m, a < c.1) : m.lookup a = Memory.unlisted := by
  induction m with
  | nil => rfl
  | cons c m ih =>
    obtain ⟨hc, hm⟩ := List.forall_mem_cons.1 h
    rw [Memory.lookup, if_neg (by omega), ih hm]

theorem Memory.ext_lookup {m n : Memory} (hm : m.wf) (hn : n.wf) (h : ∀ a < 256, m.lookup a = n.lookup a) : m = n := by
  induction m generalizing n with
  | nil =>
    cases n with
    | nil => rfl
    | cons d n =>
      obtain ⟨⟨-, hlt, hv⟩, -⟩ := Memory.wf_cons.1 hn
      have := h d.1 hlt
      rw [Memory.lookup, Memory.lookup, if_pos rfl] at this
      exact absurd this.symm hv
  | cons c m ih =>
    obtain ⟨k, v⟩ := c
    obtain ⟨⟨hk, hklt, hv⟩, hm'⟩ := Memory.wf_cons.1 hm
    cases n with
    | nil =>
      have := h k hklt
      rw [Memory.lookup, Memory.lookup, if_pos rfl] at this
      exact absurd this hv
    | cons d n =>
      obtain ⟨l, w⟩ := d
      obtain ⟨⟨hl, hllt, hw⟩, hn'⟩ := Memory.wf_cons.1 hn
      have hkl : k = l := by
        rcases Nat.lt_trichotomy k l with hlt | heq | hlt
        · have := h k hklt
          rw [Memory.lookup, if_pos rfl, Memory.lookup_of_forall_lt (m := (l, w) :: n)
            (List.forall_mem_cons.2 ⟨hlt, fun c hc => hlt.trans (hl c hc)⟩)] at this
          exact absurd this hv
        · exact heq
        · have := h l hllt
          rw [Memory.lookup_of_forall_lt (m := (k, v) :: m)
            (List.forall_mem_cons.2 ⟨hlt, fun c hc => hlt.trans (hk c hc)⟩), Memory.lookup, if_pos rfl] at this
          exact absurd this.symm hw
      subst hkl
      have hvw : v = w := by
        have := h k hklt
        rwa [Memory.lookup, Memory.lookup, if_pos rfl, if_pos rfl] at this
      subst hvw
      congr 1
      refine ih hm' hn' fun a ha => ?_
      by_cases hak : k = a
      · subst hak
        rw [Memory.lookup_of_forall_lt hk, Memory.lookup_of_forall_lt hl]
      · have := h a ha
        rwa [Memory.lookup, Memory.lookup, if_neg hak, if_neg hak] at this

/-- Two canonical memories that read alike are the same data. -/
theorem Memory.ext_read {m n : Memory} (hm : m.wf) (hn : n.wf) (h : ∀ a, m.read a = n.read a) : m = n := by
  refine Memory.ext_lookup hm hn fun a ha => ?_
  have := h (BitVec.ofNat 8 a)
  rwa [Memory.read, Memory.read, BitVec.toNat_ofNat, Nat.mod_eq_of_lt (by omega)] at this

/-- A canonical memory that reads as zeros lists nothing. -/
theorem Memory.eq_zeros {m : Memory} (hm : m.wf) (h : ∀ a, m.read a = 0#8) : m = Memory.zeros :=
  Memory.ext_read hm Memory.wf_zeros h

end Sys2Proof.Machine
end

