-- ==== Sys2Proof/Laws/State.lean ====
section
/-! SUPPORT. One lemma per field per update of the state. -/

namespace Sys2Proof.Machine

variable (s : State) (e : Engine) (c : Code) (d : BitVec 24) (cw : Word) (b : Byte)

@[simp] theorem State.withEngine_engine : (s.withEngine e).engine = e := rfl
@[simp] theorem State.withEngine_input : (s.withEngine e).input = s.input := rfl
@[simp] theorem State.withEngine_responses : (s.withEngine e).responses = s.responses := rfl
@[simp] theorem State.withEngine_self : s.withEngine s.engine = s := rfl

@[simp] theorem State.answer_engine : (s.answer c d).engine = s.engine := rfl
@[simp] theorem State.answer_input : (s.answer c d).input = s.input := rfl
@[simp] theorem State.answer_responses : (s.answer c d).responses = s.responses ++ [responseWord c d] := rfl

@[simp] theorem hardwareReset_engine : (hardwareReset s).engine = Engine.reset := rfl
@[simp] theorem hardwareReset_input : (hardwareReset s).input = s.input := rfl
@[simp] theorem hardwareReset_responses : (hardwareReset s).responses = s.responses := rfl

@[simp] theorem offerWord_engine : (offerWord s cw).engine = s.engine := rfl
@[simp] theorem offerWord_input : (offerWord s cw).input = .command cw :: s.input := rfl
@[simp] theorem offerWord_responses : (offerWord s cw).responses = s.responses := rfl

@[simp] theorem appendKeyByte_S : (appendKeyByte e b).S = e.S := rfl
@[simp] theorem appendKeyByte_I : (appendKeyByte e b).I = e.I := rfl
@[simp] theorem appendKeyByte_J : (appendKeyByte e b).J = e.J := rfl
@[simp] theorem appendKeyByte_KEY : (appendKeyByte e b).KEY = e.KEY.write (keyWriteIndex e.KEYLEN) b := rfl
@[simp] theorem appendKeyByte_KEYLEN : (appendKeyByte e b).KEYLEN = e.KEYLEN + 1#9 := rfl
@[simp] theorem appendKeyByte_DROP : (appendKeyByte e b).DROP = e.DROP := rfl
@[simp] theorem appendKeyByte_PHASE : (appendKeyByte e b).PHASE = e.PHASE := rfl

@[simp] theorem schedule_S : (schedule e).S = ksa e.KEY e.KEYLEN := rfl
@[simp] theorem schedule_I : (schedule e).I = 0#8 := rfl
@[simp] theorem schedule_J : (schedule e).J = 0#8 := rfl
@[simp] theorem schedule_KEY : (schedule e).KEY = e.KEY := rfl
@[simp] theorem schedule_KEYLEN : (schedule e).KEYLEN = e.KEYLEN := rfl
@[simp] theorem schedule_DROP : (schedule e).DROP = e.DROP := rfl
@[simp] theorem schedule_PHASE : (schedule e).PHASE = e.PHASE := rfl

@[simp] theorem prgaNext_I : (prgaNext e).I = nextI e.I := rfl
@[simp] theorem prgaNext_J : (prgaNext e).J = nextJ e.S (nextI e.I) e.J := rfl
@[simp] theorem prgaNext_S : (prgaNext e).S = e.S.swap (nextI e.I) (nextJ e.S (nextI e.I) e.J) := rfl
@[simp] theorem prgaNext_KEY : (prgaNext e).KEY = e.KEY := rfl
@[simp] theorem prgaNext_KEYLEN : (prgaNext e).KEYLEN = e.KEYLEN := rfl
@[simp] theorem prgaNext_DROP : (prgaNext e).DROP = e.DROP := rfl
@[simp] theorem prgaNext_PHASE : (prgaNext e).PHASE = e.PHASE := rfl

@[simp] theorem becomeReady_S : (becomeReady e).S = e.S := rfl
@[simp] theorem becomeReady_I : (becomeReady e).I = e.I := rfl
@[simp] theorem becomeReady_J : (becomeReady e).J = e.J := rfl
@[simp] theorem becomeReady_KEY : (becomeReady e).KEY = Memory.zeros := rfl
@[simp] theorem becomeReady_KEYLEN : (becomeReady e).KEYLEN = 0#9 := rfl
@[simp] theorem becomeReady_DROP : (becomeReady e).DROP = e.DROP := rfl
@[simp] theorem becomeReady_PHASE : (becomeReady e).PHASE = .ready := rfl

end Sys2Proof.Machine
end

