-- ==== Sys2Proof/Laws/Ops.lean ====
section
/-! SUPPORT. What each shared operation can do: the response, the error response, the phase check, and the fields of the
response word. -/

namespace Sys2Proof.Machine

/-- A response is the one thing `respond` adds. -/
theorem respond_eq_next {c : Code} {d : BitVec 24} {s t : State} : respond c d s = .next t ↔ t = s.answer c d := by
  simp [respond, eq_comm]

/-- An error adds its response and writes no state (R161). -/
theorem raise_eq_next {e : CommandError} {s t : State} : raise e s = .next t ↔ t = s.answer e.code 0#24 :=
  respond_eq_next

/-- In its phase a command runs; in the other it raises `UsageError` (R163). -/
theorem whenPhase_eq_next {p : Phase} {s t : State} {k : Host.Outcome State Fault Refusal} :
    whenPhase p s k = .next t ↔
      (s.engine.PHASE = p ∧ k = .next t) ∨ (s.engine.PHASE ≠ p ∧ t = s.answer .usageError 0#24) := by
  unfold whenPhase
  split_ifs with h <;> simp [h, raise_eq_next, CommandError.code]

theorem whenPhase_of_eq {p : Phase} {s : State} (h : s.engine.PHASE = p) (k : Host.Outcome State Fault Refusal) :
    whenPhase p s k = k := if_pos h

theorem whenPhase_of_ne {p : Phase} {s : State} (h : s.engine.PHASE ≠ p) (k : Host.Outcome State Fault Refusal) :
    whenPhase p s k = .next (s.answer .usageError 0#24) := if_neg h

/-! ### The response word (R79) -/

theorem responseWord_toNat (c : Code) (d : BitVec 24) :
    (responseWord c d).toNat = c.bits.toNat * 2 ^ 28 + d.toNat := by
  rw [responseWord, append_toNat, append_toNat, BitVec.toNat_ofNat]; omega

@[simp] theorem responseWord_code (c : Code) (d : BitVec 24) : (responseWord c d).extractLsb' 28 4 = c.bits := by
  apply BitVec.eq_of_toNat_eq
  rw [BitVec.extractLsb'_toNat, Nat.shiftRight_eq_div_pow, responseWord_toNat]
  have := c.bits.isLt; have := d.isLt; omega

@[simp] theorem responseWord_reserved (c : Code) (d : BitVec 24) : (responseWord c d).extractLsb' 24 4 = 0#4 := by
  apply BitVec.eq_of_toNat_eq
  rw [BitVec.extractLsb'_toNat, Nat.shiftRight_eq_div_pow, responseWord_toNat, BitVec.toNat_ofNat]
  have := d.isLt; omega

@[simp] theorem responseWord_data (c : Code) (d : BitVec 24) : (responseWord c d).extractLsb' 0 24 = d := by
  apply BitVec.eq_of_toNat_eq
  rw [BitVec.extractLsb'_toNat, Nat.shiftRight_eq_div_pow, responseWord_toNat]
  have := d.isLt; omega

@[simp] theorem responseWord_ok_zero : responseWord .ok 0#24 = 0x00000000#32 := by decide
@[simp] theorem responseWord_invalidInput : responseWord .invalidInput 0#24 = 0x10000000#32 := by decide
@[simp] theorem responseWord_usageError : responseWord .usageError 0#24 = 0x20000000#32 := by decide
@[simp] theorem responseWord_illegalCmd : responseWord .illegalCmd 0#24 = 0x30000000#32 := by decide

/-- A byte in the data field is the word of that byte. -/
theorem responseWord_ok_zext24 (b : Byte) : responseWord .ok (zext24 b) = b.setWidth 32 := by
  apply BitVec.eq_of_toNat_eq
  rw [responseWord_toNat, zext24, BitVec.toNat_setWidth, BitVec.toNat_setWidth]
  have := b.isLt; simp only [Code.bits, BitVec.toNat_ofNat]; omega

end Sys2Proof.Machine
end

