-- ==== Sys2Proof/Laws/Generator.lean ====
section
/-! SUPPORT. The generator and the key schedule: what a step does to the entries of `S`, that `S` stays a permutation in
canonical form, and what `Discard` and `Ksa` leave alone. -/

namespace Sys2Proof.Machine

/-! ### Permutations -/

theorem Memory.isPermutation_identity : identityMemory.isPermutation := fun v =>
  ⟨v, Memory.read_identity v, fun b hb => (Memory.read_identity b).symm.trans hb⟩

/-- A memory that reads a permutation with every entry at another place is a permutation. -/
theorem Memory.isPermutation_of_involution {m n : Memory} (f : Byte → Byte) (hf : ∀ a, f (f a) = a)
    (hn : ∀ a, n.read a = m.read (f a)) (h : m.isPermutation) : n.isPermutation := by
  intro v
  obtain ⟨a, ha, hu⟩ := h v
  refine ⟨f a, by rw [hn, hf, ha], fun b hb => ?_⟩
  rw [← hf b, hu (f b) (by rw [← hn, hb])]

/-- A swap keeps a permutation a permutation (R22). -/
theorem Memory.isPermutation_swap {m : Memory} (a b : Byte) (h : m.isPermutation) : (m.swap a b).isPermutation := by
  refine Memory.isPermutation_of_involution (fun x => if x = a then b else if x = b then a else x) (fun x => ?_)
    (fun x => ?_) h
  · by_cases hxa : x = a <;> by_cases hxb : x = b <;> simp_all
  · rw [Memory.read_swap]; split_ifs <;> rfl

/-! ### `Ksa` -/

/-- The schedule's state after the steps for the indices 0..n-1. -/
def ksaState (KEY : Memory) (keylen : BitVec 9) (n : Nat) : Memory × Byte :=
  (List.range n).foldl (fun st idx => ksaStep KEY keylen st (BitVec.ofNat 8 idx)) (identityMemory, 0#8)

theorem ksa_eq_ksaState (KEY : Memory) (keylen : BitVec 9) : ksa KEY keylen = (ksaState KEY keylen 256).1 := by
  unfold ksa ksaState; rfl

theorem ksaState_succ (KEY : Memory) (keylen : BitVec 9) (n : Nat) :
    ksaState KEY keylen (n + 1) = ksaStep KEY keylen (ksaState KEY keylen n) (BitVec.ofNat 8 n) := by
  simp [ksaState, List.range_succ]

theorem ksaState_wf (KEY : Memory) (keylen : BitVec 9) (n : Nat) : (ksaState KEY keylen n).1.wf := by
  induction n with
  | zero => exact Memory.wf_identity
  | succ n ih => rw [ksaState_succ]; exact Memory.wf_swap _ _ ih

/-- The schedule's `S` is in canonical form. -/
theorem Memory.wf_ksa (KEY : Memory) (keylen : BitVec 9) : (ksa KEY keylen).wf := by
  rw [ksa_eq_ksaState]; exact ksaState_wf _ _ _

theorem ksaState_isPermutation (KEY : Memory) (keylen : BitVec 9) (n : Nat) :
    (ksaState KEY keylen n).1.isPermutation := by
  induction n with
  | zero => exact Memory.isPermutation_identity
  | succ n ih => rw [ksaState_succ]; exact Memory.isPermutation_swap _ _ ih

/-! ### `PrgaStep` and `Discard` -/

@[simp] theorem discard_zero (e : Engine) : discard 0 e = e := rfl
@[simp] theorem discard_succ (n : Nat) (e : Engine) : discard (n + 1) e = discard n (prgaNext e) := rfl

/-- `m` discarded steps and then `n` are `m + n` (R115). -/
theorem discard_add (m n : Nat) (e : Engine) : discard (m + n) e = discard n (discard m e) := by
  induction m generalizing e with
  | zero => simp
  | succ m ih => rw [Nat.succ_add, discard_succ, ih, discard_succ]

/-- What every generator step keeps, every number of them keeps. -/
theorem discard_induction {P : Engine → Prop} (hstep : ∀ e, P e → P (prgaNext e)) (n : Nat) (e : Engine) (h : P e) :
    P (discard n e) := by
  induction n generalizing e with
  | zero => exact h
  | succ n ih => exact ih _ (hstep e h)

/-- The discard phase touches `S`, `I` and `J` alone. -/
theorem discard_frame (n : Nat) (e : Engine) :
    (discard n e).KEY = e.KEY ∧ (discard n e).KEYLEN = e.KEYLEN ∧ (discard n e).DROP = e.DROP ∧
      (discard n e).PHASE = e.PHASE :=
  discard_induction (P := fun f => f.KEY = e.KEY ∧ f.KEYLEN = e.KEYLEN ∧ f.DROP = e.DROP ∧ f.PHASE = e.PHASE)
    (fun _ h => h) n e ⟨rfl, rfl, rfl, rfl⟩

theorem discard_wf (n : Nat) (e : Engine) (h : e.S.wf) : (discard n e).S.wf :=
  discard_induction (P := fun f => f.S.wf) (fun _ h => Memory.wf_swap _ _ h) n e h

theorem discard_isPermutation (n : Nat) (e : Engine) (h : e.S.isPermutation) : (discard n e).S.isPermutation :=
  discard_induction (P := fun f => f.S.isPermutation) (fun _ h => Memory.isPermutation_swap _ _ h) n e h

end Sys2Proof.Machine
end

