-- ==== Sys2Proof/Laws/Effect.lean ====
section
/-! SUPPORT. Everything a command can do, said once: its effect on the engine and its response, as functions of the
command and the engine alone. `exec`, the port and the step are equal to it. -/

namespace Sys2Proof.Machine

/-- What a command does to the engine, and the response it gives. -/
structure Effect where
  engine : Engine
  code   : Code
  data   : BitVec 24

/-- An error: nothing written, data 0. -/
def Effect.error (e : Engine) (err : CommandError) : Effect := ⟨e, err.code, 0#24⟩

/-- The effect of each command in each phase. -/
def effect (i : Instr) (e : Engine) : Effect :=
  match i, e.PHASE with
  | .clear, _ => ⟨clearedEngine, .ok, 0#24⟩
  | .keyb b, .idle => ⟨if keyHasRoom e.KEYLEN then appendKeyByte e b else e, .ok, 0#24⟩
  | .keyb _, .ready => .error e .usageError
  | .setdrop n, .idle => ⟨{ e with DROP := n }, .ok, 0#24⟩
  | .setdrop _, .ready => .error e .usageError
  | .init, .idle => if e.KEYLEN = 0#9 then .error e .invalidInput else ⟨construct e, .ok, 0#24⟩
  | .init, .ready => .error e .usageError
  | .xorb _, .idle => .error e .usageError
  | .xorb b, .ready => ⟨prgaNext e, .ok, zext24 (b ^^^ prgaOutput (prgaNext e))⟩
  | .rdstat, _ => ⟨e, .ok, statusWord e⟩
  | .rddrop, _ => ⟨e, .ok, e.DROP⟩

/-- The effect of a word at the port. -/
def wordEffect (cw : Word) (e : Engine) : Effect :=
  match decode cw with
  | .command i => effect i e
  | .illegal _ => .error e .illegalCommand

/-- A command answers a next state, whose engine and whose one new response are its effect. -/
theorem exec_eq_effect (i : Instr) (s : State) :
    exec i s = .next ⟨(effect i s.engine).engine, s.input,
      s.responses ++ [responseWord (effect i s.engine).code (effect i s.engine).data]⟩ := by
  cases i <;> cases h : s.engine.PHASE <;>
    simp only [exec, execClear, execKeyb, execSetdrop, execInit, execXorb, execRdstat, execRddrop, whenPhase, h, effect,
      reduceCtorEq, if_true, if_false] <;>
    (try split_ifs) <;> rfl

/-- A word at the port is answered by its effect. -/
theorem execWord_eq_effect (cw : Word) (s : State) :
    execWord cw s = .next ⟨(wordEffect cw s.engine).engine, s.input,
      s.responses ++ [responseWord (wordEffect cw s.engine).code (wordEffect cw s.engine).data]⟩ := by
  unfold execWord wordEffect
  cases decode cw with
  | command i => exact exec_eq_effect i s
  | illegal why => rfl

/-- The step on a command at the port. -/
theorem step_command {s : State} {cw : Word} {rest : List HostAction} (h : s.input = .command cw :: rest) :
    step s = .next ⟨(wordEffect cw s.engine).engine, rest,
      s.responses ++ [responseWord (wordEffect cw s.engine).code (wordEffect cw s.engine).data]⟩ := by
  unfold step
  rw [h]
  exact execWord_eq_effect cw _

/-- The step on a word just offered. -/
theorem step_offerWord (s : State) (cw : Word) :
    step (offerWord s cw) = .next ⟨(wordEffect cw s.engine).engine, s.input,
      s.responses ++ [responseWord (wordEffect cw s.engine).code (wordEffect cw s.engine).data]⟩ :=
  step_command rfl

/-- An error's effect leaves the engine as it was, and every error has data 0 (R161). -/
theorem effect_error (i : Instr) (e : Engine) (h : (effect i e).code ≠ .ok) :
    (effect i e).engine = e ∧ (effect i e).data = 0#24 := by
  cases i <;> cases hp : e.PHASE <;> simp only [effect, hp, Effect.error, ne_eq, not_true_eq_false] at h ⊢ <;>
    first
    | exact ⟨rfl, rfl⟩
    | (split_ifs at h ⊢ <;> first | exact ⟨rfl, rfl⟩ | exact absurd rfl h)
    | trivial

theorem wordEffect_error (cw : Word) (e : Engine) (h : (wordEffect cw e).code ≠ .ok) :
    (wordEffect cw e).engine = e ∧ (wordEffect cw e).data = 0#24 := by
  unfold wordEffect at h ⊢
  cases hd : decode cw with
  | command i => rw [hd] at h; exact effect_error i e h
  | illegal why => exact ⟨rfl, rfl⟩

end Sys2Proof.Machine
end

