-- ==== Sys2Proof/Laws/PerInstr.lean ====
section
/-! SUPPORT. Families of statements about every command, one lemma per constructor. -/

namespace Sys2Proof.Laws.EncodedWordHasOneRow

/-- Exactly one row of the opcode map matches a command's word, and it is the row of its mnemonic
(spec/30_encoding.md R74). -/
def Statement (i : Instr) : Prop :=
  (opcodeTable.filter fun r => r.matchesWord (encode i)).map OpcodeRow.mnemonic = [i.mnemonic]

/-! When each row of the opcode map matches a word, by the word's fields. -/

theorem row_clear (cw : Word) :
    cw &&& 0xFFFFFFFF#32 = 0x01000000#32 ↔ opField cw = 0x01#8 ∧ argField cw = 0#24 := and_maskN_eq cw 0x01#8
theorem row_keyb (cw : Word) :
    cw &&& 0xFFFFFF00#32 = 0x02000000#32 ↔ opField cw = 0x02#8 ∧ reservedField cw = 0#16 := and_maskB_eq cw 0x02#8
theorem row_setdrop (cw : Word) :
    cw &&& 0xFF000000#32 = 0x03000000#32 ↔ opField cw = 0x03#8 := and_maskW_eq cw 0x03#8
theorem row_init (cw : Word) :
    cw &&& 0xFFFFFFFF#32 = 0x04000000#32 ↔ opField cw = 0x04#8 ∧ argField cw = 0#24 := and_maskN_eq cw 0x04#8
theorem row_xorb (cw : Word) :
    cw &&& 0xFFFFFF00#32 = 0x05000000#32 ↔ opField cw = 0x05#8 ∧ reservedField cw = 0#16 := and_maskB_eq cw 0x05#8
theorem row_rdstat (cw : Word) :
    cw &&& 0xFFFFFFFF#32 = 0x06000000#32 ↔ opField cw = 0x06#8 ∧ argField cw = 0#24 := and_maskN_eq cw 0x06#8
theorem row_rddrop (cw : Word) :
    cw &&& 0xFFFFFFFF#32 = 0x07000000#32 ↔ opField cw = 0x07#8 ∧ argField cw = 0#24 := and_maskN_eq cw 0x07#8

/-- The mnemonics of the rows that match a word are those of the rows that match its fields. -/
theorem statement_of_fields {i : Instr}
    (h : (opcodeTable.filter fun r => decide (encode i &&& r.mask = r.pattern)).map OpcodeRow.mnemonic = [i.mnemonic]) :
    Statement i := h

theorem clear : Statement .clear := statement_of_fields (by
  simp only [opcodeTable, List.filter_cons, row_clear, row_keyb, row_setdrop, row_init, row_xorb, row_rdstat, row_rddrop]
  simp [encode, Instr.mnemonic])
theorem keyb (b : Byte) : Statement (.keyb b) := statement_of_fields (by
  simp only [opcodeTable, List.filter_cons, row_clear, row_keyb, row_setdrop, row_init, row_xorb, row_rdstat, row_rddrop]
  simp [encode, Instr.mnemonic])
theorem setdrop (n : DropCount) : Statement (.setdrop n) := statement_of_fields (by
  simp only [opcodeTable, List.filter_cons, row_clear, row_keyb, row_setdrop, row_init, row_xorb, row_rdstat, row_rddrop]
  simp [encode, Instr.mnemonic])
theorem init : Statement .init := statement_of_fields (by
  simp only [opcodeTable, List.filter_cons, row_clear, row_keyb, row_setdrop, row_init, row_xorb, row_rdstat, row_rddrop]
  simp [encode, Instr.mnemonic])
theorem xorb (b : Byte) : Statement (.xorb b) := statement_of_fields (by
  simp only [opcodeTable, List.filter_cons, row_clear, row_keyb, row_setdrop, row_init, row_xorb, row_rdstat, row_rddrop]
  simp [encode, Instr.mnemonic])
theorem rdstat : Statement .rdstat := statement_of_fields (by
  simp only [opcodeTable, List.filter_cons, row_clear, row_keyb, row_setdrop, row_init, row_xorb, row_rdstat, row_rddrop]
  simp [encode, Instr.mnemonic])
theorem rddrop : Statement .rddrop := statement_of_fields (by
  simp only [opcodeTable, List.filter_cons, row_clear, row_keyb, row_setdrop, row_init, row_xorb, row_rdstat, row_rddrop]
  simp [encode, Instr.mnemonic])

end Sys2Proof.Laws.EncodedWordHasOneRow
end

