-- ==== Sys2Proof/Laws/Run.lean ====
section
/-! SUPPORT. Runs: step by step, in two parts, and as the host's interface runs the machine. -/

namespace Sys2Proof.Machine

@[simp] theorem run_zero (s : State) : run 0 s = .next s := rfl

theorem run_succ_of_step {s t : State} (n : Nat) (h : step s = .next t) : run (n + 1) s = run n t := by
  rw [run, h]

/-- A run in two parts: the second goes on where the first ended. -/
theorem run_add_of_run {m : Nat} {s t : State} (n : Nat) (h : run m s = .next t) : run (m + n) s = run n t := by
  induction m generalizing s with
  | zero => cases h; rw [Nat.zero_add]
  | succ m ih =>
    rw [run] at h
    cases hs : step s with
    | next u => rw [hs] at h; rw [Nat.succ_add, run_succ_of_step _ hs, ih h]
    | fault r => rw [hs] at h; cases h
    | refused r => rw [hs] at h; cases h

/-- One more step of a run of the host's interface, on any machine. -/
theorem core_run_succ (M : Host.Core) (n : Nat) (s : M.State) : M.run (n + 1) s =
    match M.step s with
    | .next t => M.run n t
    | .fault r => .fault r
    | .refused r => .refused r := by
  cases h : M.step s <;> simp [Host.Core.run, h]

/-- The runs claims speak of are the host's. -/
theorem run_eq_core_run (n : Nat) (s : State) : run n s = Sys2Proof.core.run n s := by
  induction n generalizing s with
  | zero => rfl
  | succ n ih =>
    refine Eq.trans ?_ (core_run_succ Sys2Proof.core n s).symm
    have hstep : Sys2Proof.core.step s = step s := rfl
    rw [run, hstep]
    cases step s with
    | next t => exact ih t
    | fault r => rfl
    | refused r => rfl

end Sys2Proof.Machine
end

