-- ==== Sys2Proof/Tests/Slice0.lean ====
section
/-! SUPPORT. The model's own tests. Expected words and values are those of spec/95_test_vectors.md (V1 to V12) and of the
examples in the command rules, never the model's own answers. After them, for each statement that has hypotheses, a
witness that meets them. -/

namespace Sys2Proof.Tests

open Sys2Proof Sys2Proof.Machine

/-! ### Well-formedness: each check refuses an ill-formed term -/

theorem test_line_n_with_operand : AsmLine.wellFormed ⟨.clear, some 0⟩ = false := by decide
theorem test_line_n_without_operand : AsmLine.wellFormed ⟨.rddrop, none⟩ = true := by decide
theorem test_line_b_without_operand : AsmLine.wellFormed ⟨.keyb, none⟩ = false := by decide
theorem test_line_b_out_of_range : AsmLine.wellFormed ⟨.xorb, some 256⟩ = false := by decide
theorem test_line_b_in_range : AsmLine.wellFormed ⟨.xorb, some 255⟩ = true := by decide
theorem test_line_w_without_operand : AsmLine.wellFormed ⟨.setdrop, none⟩ = false := by decide
theorem test_line_w_out_of_range : AsmLine.wellFormed ⟨.setdrop, some 16777216⟩ = false := by decide
theorem test_line_w_in_range : AsmLine.wellFormed ⟨.setdrop, some 16777215⟩ = true := by decide
theorem test_word_reserved_opcode : Word.wellFormed 0x08000000#32 = false := by decide
theorem test_word_reserved_bits_n : Word.wellFormed 0x04800000#32 = false := by decide
theorem test_word_reserved_bits_b : Word.wellFormed 0x05010041#32 = false := by decide
theorem test_word_well_formed : Word.wellFormed 0x03FFFFFF#32 = true := by decide

/-! ### Decoding: the words of V1 -/

theorem test_decode_clear : decode 0b00000001000000000000000000000000#32 = .command .clear := by decide
theorem test_decode_keyb : decode 0b00000010000000000000000001001011#32 = .command (.keyb 0x4B#8) := by decide
theorem test_decode_setdrop : decode 0b00000011000000000000001100000000#32 = .command (.setdrop 768#24) := by decide
theorem test_decode_setdrop_largest : decode 0x03FFFFFF#32 = .command (.setdrop 16777215#24) := by decide
theorem test_decode_init : decode 0b00000100000000000000000000000000#32 = .command .init := by decide
theorem test_decode_xorb : decode 0b00000101000000000000000001010000#32 = .command (.xorb 0x50#8) := by decide
theorem test_decode_rdstat : decode 0b00000110000000000000000000000000#32 = .command .rdstat := by decide
theorem test_decode_rddrop : decode 0b00000111000000000000000000000000#32 = .command .rddrop := by decide

theorem test_decode_zero_word : decode 0x00000000#32 = .illegal .reservedOpcode := by decide
theorem test_decode_ones_word : decode 0xFFFFFFFF#32 = .illegal .reservedOpcode := by decide
theorem test_decode_opcode_8 : decode 0x08000000#32 = .illegal .reservedOpcode := by decide
theorem test_decode_clear_bit_0 : decode 0x01000001#32 = .illegal .reservedBits := by decide
theorem test_decode_keyb_bit_8 : decode 0x02000100#32 = .illegal .reservedBits := by decide
theorem test_decode_init_bit_23 : decode 0x04800000#32 = .illegal .reservedBits := by decide
theorem test_decode_xorb_bit_16 : decode 0x05010041#32 = .illegal .reservedBits := by decide
theorem test_decode_rdstat_bit_0 : decode 0x06000001#32 = .illegal .reservedBits := by decide
theorem test_decode_rddrop_all_bits : decode 0x07FFFFFF#32 = .illegal .reservedBits := by decide

theorem test_encode_v1 :
    [encode .clear, encode (.keyb 0xFF#8), encode (.setdrop 1#24), encode .init, encode (.xorb 0x50#8), encode .rdstat,
      encode .rddrop] =
    [0x01000000#32, 0x020000FF#32, 0x03000001#32, 0x04000000#32, 0x05000050#32, 0x06000000#32, 0x07000000#32] := by
  decide

theorem test_decodeTableWord : decodeTableWord 32 0x0200004B = some (.keyb 0x4B#8) := by decide
theorem test_decodeTableWord_too_long : decodeTableWord 40 0x0200004B = none := by decide

/-! ### One step -/

/-- Whether an outcome is a next state with a property. -/
def nextIs (o : Host.Outcome State Fault Refusal) (p : State → Bool) : Bool :=
  match o with
  | .next t => p t
  | .fault _ => false
  | .refused _ => false

/-- The reset state with a word at the port. -/
def fromReset (cw : Word) : State := offerWord State.reset cw

/-- An engine with a key loaded. -/
def loadedEngine (key : Memory) (n : BitVec 9) : Engine := { Engine.reset with KEY := key, KEYLEN := n }

/-- V5a: a live engine whose `S` is the identity and whose cursor is (i, j). -/
def readyEngine (i j : Byte) : Engine := { Engine.reset with S := identityMemory, I := i, J := j, PHASE := .ready }

/-- An engine with a word at the port, nothing answered yet. -/
def offered (e : Engine) (cw : Word) : State := ⟨e, [.command cw], []⟩

/-- R92's example, through the step: the byte is stored and counted, the answer is `OK`. -/
theorem test_keyb : nextIs (step (fromReset 0x0200004B#32)) (fun t =>
    t.engine.KEY == [(0, 0x4B#8)] && t.engine.KEYLEN == 1#9 && t.responses == [0x00000000#32]) = true := by decide

/-- V2, the 257th byte: `OK`, and nothing is stored. -/
theorem test_keyb_full : nextIs (step (offered (loadedEngine [(255, 0xFF#8)] 256#9) 0x02000077#32)) (fun t =>
    t.engine == loadedEngine [(255, 0xFF#8)] 256#9 && t.responses == [0x00000000#32]) = true := by decide

/-- R110's largest operand. -/
theorem test_setdrop : nextIs (step (fromReset 0x03FFFFFF#32)) (fun t =>
    t.engine.DROP == 0xFFFFFF#24 && t.responses == [0x00000000#32]) = true := by decide

/-- V12: `SETDROP` in `READY` is refused. -/
theorem test_setdrop_ready : nextIs (step (offered (readyEngine 0#8 0#8) 0x03000005#32)) (fun t =>
    t.engine.DROP == 768#24 && t.responses == [0x20000000#32]) = true := by decide

/-- V12: `INIT` with an empty key. -/
theorem test_init_empty_key : nextIs (step (fromReset 0x04000000#32)) (fun t =>
    t.engine == Engine.reset && t.responses == [0x10000000#32]) = true := by decide

/-- V12: `INIT` with a reserved bit set, in `IDLE` with an empty key: decode comes first. -/
theorem test_init_reserved_bit : nextIs (step (fromReset 0x04000001#32)) (fun t =>
    t.engine == Engine.reset && t.responses == [0x30000000#32]) = true := by decide

/-- V5a, step 0 (the `I = J` corner): (I, J) = (1, 1) and the keystream byte is 0x02. -/
theorem test_xorb_first : nextIs (step (offered (readyEngine 0#8 0#8) 0x05000000#32)) (fun t =>
    t.engine.I == 1#8 && t.engine.J == 1#8 && t.responses == [0x00000002#32]) = true := by decide +kernel

/-- V5a, step 1: from the cursor (1, 1), (I, J) = (2, 3), `S[2]` and `S[3]` exchanged, and the keystream byte is 0x05,
so that `XORB 0xFF` answers 0xFA. -/
theorem test_xorb_second : nextIs (step (offered (readyEngine 1#8 1#8) 0x050000FF#32)) (fun t =>
    t.engine.I == 2#8 && t.engine.J == 3#8 && t.engine.S.read 2#8 == 3#8 && t.engine.S.read 3#8 == 2#8 &&
      t.responses == [0x000000FA#32]) = true := by decide +kernel

/-- V12: `XORB` in `IDLE`. -/
theorem test_xorb_idle : nextIs (step (fromReset 0x05000041#32)) (fun t =>
    t.engine == Engine.reset && t.responses == [0x20000000#32]) = true := by decide

/-- R148's example after three `KEYB`s. -/
theorem test_rdstat_idle : nextIs (step (offered (loadedEngine [] 3#9) 0x06000000#32)) (fun t =>
    t.responses == [0x00000003#32]) = true := by decide

/-- R148's example after a successful `INIT`. -/
theorem test_rdstat_ready : nextIs (step (offered (readyEngine 0#8 0#8) 0x06000000#32)) (fun t =>
    t.responses == [0x00010000#32]) = true := by decide

/-- V11: `RDDROP` from reset. -/
theorem test_rddrop : nextIs (step (fromReset 0x07000000#32)) (fun t =>
    t.engine == Engine.reset && t.responses == [0x00000300#32]) = true := by decide

/-- V11: `CLEAR` of a live engine leaves the reset state. -/
theorem test_clear : nextIs (step (offered { readyEngine 3#8 5#8 with DROP := 3#24 } 0x01000000#32)) (fun t =>
    t.engine == Engine.reset && t.responses == [0x00000000#32]) = true := by decide

/-- R185: `rst` gives the reset state and no response. -/
theorem test_reset : nextIs (step ⟨readyEngine 3#8 5#8, [.reset], []⟩) (fun t =>
    t.engine == Engine.reset && t.responses == []) = true := by decide

/-- V3: key `4B 65 79`, the accumulator after six iterations of the schedule, and the entries the sixth exchanged. -/
theorem test_ksa_six_steps :
    let st := ksaState [(0, 0x4B#8), (1, 0x65#8), (2, 0x79#8)] 3#9 6
    (st.2, st.1.read 0#8, st.1.read 5#8, st.1.read 97#8) = (97#8, 75#8, 97#8, 5#8) := by decide +kernel

/-- V4: key `00`, where the first two swaps change nothing and the accumulator after five iterations is 9. -/
theorem test_ksa_zero_key :
    let st := ksaState [] 1#9 5
    (st.2, st.1.read 2#8, st.1.read 3#8, st.1.read 4#8) = (9#8, 3#8, 5#8, 9#8) := by decide +kernel

/-! ### The host's side -/

/-- R81: a decimal operand and a comment. -/
theorem test_assemble_decimal :
    assembleText ['S', 'E', 'T', 'D', 'R', 'O', 'P', ' ', '7', '6', '8', ' ', ';', 'd'] = some (.setdrop 768#24) := by
  decide
/-- R81: a hexadecimal operand. -/
theorem test_assemble_hex : assembleText ['K', 'E', 'Y', 'B', ' ', '0', 'x', '4', 'B'] = some (.keyb 0x4B#8) := by
  decide
/-- R81: an operand out of range cannot be assembled. -/
theorem test_assemble_out_of_range : assembleText ['X', 'O', 'R', 'B', ' ', '2', '5', '6'] = none := by decide
/-- R81, R79: the answer of `RDDROP` after reset (R150 gives the word), written out; code 4 is never produced. -/
theorem test_response_text :
    responseText 0x00000300#32 = some ['-', '>', ' ', 'O', 'K', ' ', '7', '6', '8'] ∧
    responseText 0x40000000#32 = none := by decide
/-- R82: `KSB` is `XORB 0x00`. -/
theorem test_ksb : commandsOf pseudoKsb = [.command 0x05000000#32] := by decide
/-- R82: `NEWINST 0; 4B 65`. -/
theorem test_newinst : commandsOf (pseudoNewInst (some 0#24) [0x4B#8, 0x65#8]) =
    [.command 0x01000000#32, .command 0x0200004B#32, .command 0x02000065#32, .command 0x03000000#32,
      .command 0x04000000#32] := by decide

/-! ### Witnesses: for each statement with hypotheses, a state and operands that meet them -/

theorem reset_is_idle_with_room : State.reset.engine.PHASE = .idle ∧ State.reset.engine.KEYLEN.toNat < 256 := by decide

/-- `readyEngine` is a state the invariant allows. -/
theorem readyEngine_inv (i j : Byte) : (readyEngine i j).Inv where
  wfS := Memory.wf_identity
  wfKEY := Memory.wf_nil
  keylen := by simp [readyEngine, Engine.reset]
  unloaded := fun _ _ => rfl
  idle := fun h => by cases h
  ready := fun _ => ⟨Memory.isPermutation_identity, rfl, fun _ => rfl⟩

/-- A live state, reached by a run or not, that the invariant allows. -/
def liveState : State := offered (readyEngine 0#8 0#8) 0x06000000#32

/-- An idle state with a three-byte key. -/
def keyedState : State := offered (loadedEngine [(0, 0x4B#8), (1, 0x65#8), (2, 0x79#8)] 3#9) 0x04000000#32

theorem witness_WordIsACommandExactlyWhenItIsItsEncoding : decode 0x020000FF#32 = .command (.keyb 0xFF#8) := by decide

theorem witness_OperandsAreTheLowBitsOfTheWord :
    decode 0x020000FF#32 = .command (.keyb 0xFF#8) ∧ decode 0x050000FF#32 = .command (.xorb 0xFF#8) ∧
    decode 0x03FFFFFF#32 = .command (.setdrop 0xFFFFFF#24) := by decide

theorem witness_ReservedOpcodeIsIllegal :
    (0x00000001#32).extractLsb' 24 8 = 0x00#8 ∧ 0x08#8 ≤ (0x08000000#32).extractLsb' 24 8 ∧
    0x08#8 ≤ (0xFF000000#32).extractLsb' 24 8 := by decide

theorem witness_NonZeroReservedBitIsIllegal :
    ((0x04000001#32).extractLsb' 24 8 ∈ [0x01#8, 0x04#8, 0x06#8, 0x07#8] ∧ (0x04000001#32).extractLsb' 0 24 ≠ 0#24) ∧
    ((0x02000100#32).extractLsb' 24 8 ∈ [0x02#8, 0x05#8] ∧ (0x02000100#32).extractLsb' 8 16 ≠ 0#16) := by decide

theorem witness_IllegalityDependsOnTheWordAlone :
    Word.wellFormed 0x08000000#32 = false ∧ Word.wellFormed 0x07000000#32 = true := by decide

theorem witness_StepRunsTheDecodedCommand :
    liveState.input = .command 0x06000000#32 :: [] ∧ decode 0x06000000#32 = .command .rdstat := by decide

theorem witness_OfferedTableWordRunsNext : decodeTableWord 32 0x050000FF = some (.xorb 0xFF#8) := by decide

theorem witness_WaitingEngineHoldsItsState : State.reset.input = [] := by decide

theorem witness_EveryCommandIsAnsweredOnce :
    keyedState.input = [0x04000000#32].map .command ++ ([] : List HostAction) := by decide

theorem witness_HardwareResetFromAnyState :
    (⟨readyEngine 3#8 5#8, [.reset], []⟩ : State).input = .reset :: [] ∧
    (⟨readyEngine 3#8 5#8, [.commandCutByReset 0x04000000#32], []⟩ : State).input =
      .commandCutByReset 0x04000000#32 :: [] := by decide

theorem witness_CommandCutByResetLeavesNoTrace :
    (⟨readyEngine 3#8 5#8, [.commandCutByReset 0x050000FF#32], []⟩ : State).input =
      .commandCutByReset 0x050000FF#32 :: [] := by decide

theorem witness_ClearDestroysTheInstanceAndTheKey :
    (0x01000001#32).extractLsb' 24 8 = 0x01#8 ∧ (0x01000001#32).extractLsb' 0 24 ≠ 0#24 ∧
    State.reset.engine = clearedEngine := by decide

theorem witness_KeybAppendsOneKeyByte :
    ((0x02000100#32).extractLsb' 24 8 = 0x02#8 ∧ (0x02000100#32).extractLsb' 8 16 ≠ 0#16) ∧
    ((loadedEngine [] 255#9).PHASE = .idle ∧ (loadedEngine [] 255#9).KEYLEN.toNat < 256) ∧
    ((loadedEngine [] 256#9).PHASE = .idle ∧ 256 ≤ (loadedEngine [] 256#9).KEYLEN.toNat) ∧
    liveState.engine.PHASE = .ready := by decide

theorem witness_SetdropWritesTheDropCount :
    (0x03FFFFFF#32).extractLsb' 24 8 = 0x03#8 ∧ State.reset.engine.PHASE = .idle ∧ liveState.engine.PHASE = .ready ∧
    nextIs (exec (.setdrop 5#24) State.reset) (fun t => t.engine.DROP == 5#24) = true := by decide

theorem witness_InitBuildsTheScheduledGenerator :
    keyedState.engine.PHASE = .idle ∧ keyedState.engine.KEYLEN ≠ 0#9 := by decide

theorem witness_InitWithEmptyKeyIsInvalidInput :
    State.reset.engine.PHASE = .idle ∧ State.reset.engine.KEYLEN = 0#9 := by decide

theorem witness_InitOnLiveInstanceIsRefused : liveState.engine.PHASE = .ready := by decide

theorem witness_XorbPullsOneKeystreamByte :
    ((0x05000100#32).extractLsb' 24 8 = 0x05#8 ∧ (0x05000100#32).extractLsb' 8 16 ≠ 0#16) ∧
    (0x01#8 = liveState.engine.I + 1#8 ∧ 0x01#8 = liveState.engine.J + liveState.engine.S.read 0x01#8 ∧
      liveState.engine.PHASE = .ready) ∧
    (0x01#8 = State.reset.engine.I + 1#8 ∧ 0x00#8 = State.reset.engine.J + State.reset.engine.S.read 0x01#8 ∧
      State.reset.engine.PHASE = .idle) := by decide

theorem witness_XorbStateIgnoresTheData : liveState.engine.PHASE = .ready := by decide

theorem witness_RdstatReportsPhaseAndKeylen :
    ((0x06000001#32).extractLsb' 24 8 = 0x06#8 ∧ (0x06000001#32).extractLsb' 0 24 ≠ 0#24) ∧
    liveState.Inv ∧ liveState.engine.PHASE = .ready :=
  ⟨by decide, ⟨readyEngine_inv 0#8 0#8, by simp [liveState, offered]⟩, by decide⟩

theorem witness_RddropReportsTheDropCount :
    ((0x07FFFFFF#32).extractLsb' 24 8 = 0x07#8 ∧ (0x07FFFFFF#32).extractLsb' 0 24 ≠ 0#24) ∧
    liveState.engine.PHASE = .ready ∧ Instr.xorb 0#8 ≠ .clear := by decide

/-- A word that answers an error: `KEYB` on a live engine. -/
theorem witness_ErrorsChangeNothing : nextIs (step (offerWord liveState 0x02000041#32)) (fun t =>
    t.responses.getLast? == some 0x20000000#32 && (0x20000000#32).extractLsb' 28 4 != 0#4) = true := by decide

theorem witness_ErrorPriority :
    liveState.engine.PHASE = .ready ∧ State.reset.engine.PHASE = .idle ∧ State.reset.engine.KEYLEN = 0#9 := by decide

/-- The first clause: the word of R165's first example is no command's. -/
theorem witness_ErrorPriority_no_command : ∀ i, 0x04000001#32 ≠ encode i := by
  intro i h
  have hop := congrArg opField h
  have harg := congrArg argField h
  have h1 : opField 0x04000001#32 = 0x04#8 := by decide
  have h2 : argField 0x04000001#32 ≠ 0#24 := by decide
  cases i <;> simp [encode, h1] at hop harg
  exact h2 harg

theorem witness_PhaseTransitionTable : keyedState.input = .command 0x04000000#32 :: [] ∧
    keyedState.engine.PHASE = .idle ∧ decode 0x04000000#32 = .command .init ∧ keyedState.engine.KEYLEN ≠ 0#9 ∧
    liveState.engine.PHASE = .ready ∧ decode 0x06000000#32 ≠ .command .clear := by decide

/-- Each kind of write of the access table happens: `CLEAR` writes every item of this engine. -/
theorem witness_AccessTableWrites :
    nextIs (exec .clear (offered ⟨[(1, 1#8)], 1#8, 1#8, [(0, 1#8)], 1#9, 0#24, .ready⟩ 0#32)) (fun t =>
      t.engine.S != [(1, 1#8)] && t.engine.I != 1#8 && t.engine.J != 1#8 && t.engine.KEY != [(0, 1#8)] &&
        t.engine.KEYLEN != 1#9 && t.engine.DROP != 0#24 && t.engine.PHASE != .ready) = true := by decide

theorem witness_OnlyXorbAndClearTouchALiveInstance :
    liveState.engine.PHASE = .ready ∧ decode 0x07000000#32 ≠ .command .clear ∧
    ∀ b, decode 0x07000000#32 ≠ .command (.xorb b) := by
  refine ⟨by decide, by decide, fun b => ?_⟩
  have h : decode 0x07000000#32 = .command .rddrop := by decide
  rw [h]; simp

/-- Two engines with different secrets. -/
theorem witness_SecretsShowOnlyThroughXorb :
    (loadedEngine [(0, 1#8)] 1#9).KEYLEN = (loadedEngine [(0, 2#8)] 1#9).KEYLEN ∧
    (loadedEngine [(0, 1#8)] 1#9).DROP = (loadedEngine [(0, 2#8)] 1#9).DROP ∧
    (loadedEngine [(0, 1#8)] 1#9).PHASE = (loadedEngine [(0, 2#8)] 1#9).PHASE ∧
    ∀ b, decode 0x06000000#32 ≠ .command (.xorb b) := by
  refine ⟨by decide, by decide, by decide, fun b => ?_⟩
  have h : decode 0x06000000#32 = .command .rdstat := by decide
  rw [h]; simp

/-- Two different memories that hold the same two-byte key. -/
theorem witness_ScheduleIsAPermutationOfTheKeyAlone :
    2#9 ≠ 0#9 ∧ ∀ a : Byte, a.toNat < (2#9).toNat →
      Memory.read [(0, 0x41#8), (1, 0x42#8)] a = Memory.read [(0, 0x41#8), (1, 0x42#8), (2, 0x43#8)] a := by decide

/-- R101's example: the key `41` and the key `41 41`. -/
theorem witness_EquivalentKeysGiveTheSameSchedule :
    (1#9 ≠ 0#9 ∧ 2#9 ≠ 0#9 ∧ ∀ idx < 256,
      Memory.read [(0, 0x41#8)] (BitVec.ofNat 8 (idx % (1#9).toNat)) =
        Memory.read [(0, 0x41#8), (1, 0x41#8)] (BitVec.ofNat 8 (idx % (2#9).toNat))) ∧
    (1 ≤ 2 ∧ 2 * (1#9).toNat ≤ 256 ∧ ∀ a < 2 * (1#9).toNat,
      Memory.read [(0, 0x41#8), (1, 0x41#8)] (BitVec.ofNat 8 a) =
        Memory.read [(0, 0x41#8)] (BitVec.ofNat 8 (a % (1#9).toNat))) := by decide +kernel

/-- V5a's corner: the new `I` and the new `J` are equal, and `S` is a permutation. -/
theorem witness_GeneratorStepDetails :
    (0x01#8 = (readyEngine 0#8 0#8).I + 1#8 ∧
      0x01#8 = (readyEngine 0#8 0#8).J + (readyEngine 0#8 0#8).S.read 0x01#8) ∧
    (readyEngine 0#8 0#8).S.isPermutation :=
  ⟨by decide, Memory.isPermutation_identity⟩

theorem witness_CursorAfterDiscard : keyedState.engine.PHASE = .idle ∧ keyedState.engine.KEYLEN ≠ 0#9 := by decide

theorem witness_DropCountRemovesTheFirstBytes :
    keyedState.engine.PHASE = .idle ∧ keyedState.engine.KEYLEN ≠ 0#9 := by decide

theorem witness_KeyBytesBeyondThe256thAreDropped :
    State.reset.engine.PHASE = .idle ∧ State.reset.engine.KEYLEN = 0#9 := by decide

theorem witness_XformXorsTheBufferWithTheKeystream :
    liveState.engine.PHASE = .ready ∧ [0x41#8, 0x42#8].length = 2 ∧ ([] : List Byte).length = 0 := by decide

theorem witness_XformContinuesWhereTheLastOneEnded : liveState.engine.PHASE = .ready := by decide

theorem witness_NewInstanceTransformsAsTheSource : [0x4B#8, 0x65#8, 0x79#8] ≠ ([] : List Byte) := by decide

/-- The keys `41` and `41 41`, equivalent by R101. -/
theorem witness_SecondInstanceInvertsTheFirst :
    [0x41#8] ≠ ([] : List Byte) ∧ [0x41#8, 0x41#8] ≠ ([] : List Byte) ∧
    ∀ idx < 256, [0x41#8].getD (idx % [0x41#8].length) 0#8 =
      [0x41#8, 0x41#8].getD (idx % [0x41#8, 0x41#8].length) 0#8 := by decide +kernel

theorem witness_StepKeepsTheInvariant : liveState.Inv :=
  ⟨readyEngine_inv 0#8 0#8, by simp [liveState, offered]⟩

/-- Two idle engines that differ in `S`, `I`, `J` and an entry of `KEY` not loaded. -/
theorem witness_IdleContentsCannotBeObserved :
    let e := { loadedEngine [(0, 1#8)] 1#9 with S := [(3, 7#8)], I := 9#8, J := 8#8, KEY := [(0, 1#8), (5, 6#8)] }
    let f := loadedEngine [(0, 1#8)] 1#9
    e.PHASE = .idle ∧ f.PHASE = .idle ∧ e.KEYLEN = f.KEYLEN ∧ e.DROP = f.DROP ∧
      ∀ a : Byte, a.toNat < e.KEYLEN.toNat → e.KEY.read a = f.KEY.read a := by decide

theorem witness_ResponseWordReadsBack :
    (Code.usageError ≠ .ok ∧ readResponse 0x20000000#32 = some (.usageError, 0#24)) ∧
    readResponse 0x000000BB#32 = some (.ok, 0xBB#24) := by decide

theorem witness_LineAssemblesExactlyWhenItsOperandFits :
    assembleLine ⟨.keyb, some 255⟩ = some (.keyb 0xFF#8) ∧ assembleLine ⟨.setdrop, some 16777216⟩ = none := by decide

end Sys2Proof.Tests
end

section
/-! PROOFS. How `PHASE` moves (spec/10_state.md R33): what each command, each word at the port and each reset leaves in
it, and the table these make. -/

namespace Sys2Proof.Machine


/-- The construction ends in `READY` (R94). -/
theorem construct_PHASE (e : Engine) : (construct e).PHASE = .ready := becomeReady_PHASE _

theorem effect_clear_PHASE (e : Engine) : (effect .clear e).engine.PHASE = .idle := rfl

/-- `INIT` is refused in `READY` (R102) and with an empty key (R95), and constructs otherwise (R94). -/
theorem effect_init_PHASE_eq_ready_iff (e : Engine) :
    (effect .init e).engine.PHASE = .ready ↔ e.PHASE = .ready ∨ (e.PHASE = .idle ∧ e.KEYLEN ≠ 0#9) := by
  cases hp : e.PHASE with
  | ready => simp [effect, Effect.error, hp]
  | idle =>
    by_cases hk : e.KEYLEN = 0#9
    · simp [effect, Effect.error, hp, hk]
    · simp [effect, hp, hk, construct_PHASE]

/-- The commands other than `CLEAR` and `INIT` leave `PHASE` as it is. -/
theorem effect_PHASE_of_ne {i : Instr} (hclear : i ≠ .clear) (hinit : i ≠ .init) (e : Engine) :
    (effect i e).engine.PHASE = e.PHASE := by
  cases i with
  | clear => exact absurd rfl hclear
  | init => exact absurd rfl hinit
  | keyb b =>
    cases hp : e.PHASE with
    | idle => cases hr : keyHasRoom e.KEYLEN <;> simp [effect, hp, hr]
    | ready => simp [effect, Effect.error, hp]
  | setdrop n => cases hp : e.PHASE <;> simp [effect, Effect.error, hp]
  | xorb b => cases hp : e.PHASE <;> simp [effect, Effect.error, hp]
  | rdstat => rfl
  | rddrop => rfl

/-- The rows of R33's table for the seven commands. -/
theorem effect_PHASE_eq_ready_iff (i : Instr) (e : Engine) :
    (effect i e).engine.PHASE = .ready ↔
      (e.PHASE = .ready ∧ i ≠ .clear) ∨ (e.PHASE = .idle ∧ i = .init ∧ e.KEYLEN ≠ 0#9) := by
  by_cases hclear : i = .clear
  · subst hclear; simp [effect_clear_PHASE]
  by_cases hinit : i = .init
  · subst hinit; simp [effect_init_PHASE_eq_ready_iff]
  · simp [effect_PHASE_of_ne hclear hinit, hclear, hinit]

/-- The rows of R33's table for every word: one that is no command leaves `PHASE` as it is (R161). -/
theorem wordEffect_PHASE_eq_ready_iff (cw : Word) (e : Engine) :
    (wordEffect cw e).engine.PHASE = .ready ↔
      (e.PHASE = .ready ∧ decode cw ≠ .command .clear) ∨
        (e.PHASE = .idle ∧ decode cw = .command .init ∧ e.KEYLEN ≠ 0#9) := by
  cases hd : decode cw with
  | command i => simpa [wordEffect, hd] using effect_PHASE_eq_ready_iff i e
  | illegal why => simp [wordEffect, hd, Effect.error]

/-- The step on `rst` between two commands (R185). -/
theorem step_reset {s : State} {rest : List HostAction} (h : s.input = .reset :: rest) :
    step s = .next ⟨Engine.reset, rest, s.responses⟩ := by
  unfold step
  rw [h]
  rfl

/-- The step on a command that `rst` cuts short (R186). -/
theorem step_commandCutByReset {s : State} {cw : Word} {rest : List HostAction}
    (h : s.input = .commandCutByReset cw :: rest) :
    step s = .next ⟨Engine.reset, rest, s.responses⟩ := by
  unfold step
  rw [h]
  rfl

theorem Engine.reset_PHASE : Engine.reset.PHASE = .idle := rfl

/-- Settles O30: a command word by the table of `wordEffect`, and both kinds of reset by the reset engine's `IDLE`. -/
theorem phaseTransitionTable : Obligations.PhaseTransitionTable := by
  intro s a rest h
  cases a with
  | command cw => exact ⟨_, step_command h, by simp [wordEffect_PHASE_eq_ready_iff]⟩
  | reset => exact ⟨_, step_reset h, by simp [Engine.reset_PHASE]⟩
  | commandCutByReset cw => exact ⟨_, step_commandCutByReset h, by simp [Engine.reset_PHASE]⟩

end Sys2Proof.Machine
end

section
/-! PROOFS. Encoding (spec/30_encoding.md R74, R76, R77): a word is a command exactly when it is that command's word,
which words are illegal, and the one answer every illegal word gets. -/

namespace Sys2Proof

/-! ### The words of each format, by their fields -/

theorem eq_encodeN_iff (cw : Word) (op : BitVec 8) : cw = encodeN op ↔ opField cw = op ∧ argField cw = 0#24 := by
  constructor
  · rintro rfl; simp
  · rintro ⟨rfl, h⟩; exact eq_encodeN_of_argField cw h

theorem exists_eq_encodeB_iff (cw : Word) (op : BitVec 8) :
    (∃ b, cw = encodeB op b) ↔ opField cw = op ∧ reservedField cw = 0#16 := by
  constructor
  · rintro ⟨b, rfl⟩; simp
  · rintro ⟨rfl, h⟩; exact ⟨_, eq_encodeB_of_reservedField cw h⟩

theorem exists_eq_encodeW_iff (cw : Word) (op : BitVec 8) : (∃ n, cw = encodeW op n) ↔ opField cw = op := by
  constructor
  · rintro ⟨n, rfl⟩; simp
  · rintro rfl; exact ⟨_, eq_encodeW_fields cw⟩

/-! ### Decoding undoes encoding, and no other word decodes to the command -/

theorem decode_encode (i : Instr) : decode (encode i) = .command i := by
  cases i <;> simp [encode, decode, decodeN, decodeB]

theorem eq_encode_of_decodeN {i j : Instr} {cw : Word} (hi : encode i = encodeN (opField cw))
    (h : decodeN i cw = .command j) : cw = encode j := by
  obtain ⟨harg, rfl⟩ := (decodeN_eq_command i j cw).1 h
  exact (eq_encodeN_of_argField cw harg).trans hi.symm

theorem eq_encode_of_decodeB {i : Byte → Instr} {j : Instr} {cw : Word}
    (hi : ∀ b, encode (i b) = encodeB (opField cw) b) (h : decodeB i cw = .command j) : cw = encode j := by
  obtain ⟨hres, rfl⟩ := (decodeB_eq_command i j cw).1 h
  exact (eq_encodeB_of_reservedField cw hres).trans (hi _).symm

theorem eq_encode_of_decode {cw : Word} {i : Instr} (h : decode cw = .command i) : cw = encode i := by
  unfold decode at h
  split_ifs at h with h1 h2 h3 h4 h5 h6 h7
  · exact eq_encode_of_decodeN (by rw [h1, encode]) h
  · exact eq_encode_of_decodeB (fun b => by rw [h2, encode]) h
  · obtain rfl := Decoded.command.inj h
    exact (eq_encodeW_fields cw).trans (by rw [h3, encode])
  · exact eq_encode_of_decodeN (by rw [h4, encode]) h
  · exact eq_encode_of_decodeB (fun b => by rw [h5, encode]) h
  · exact eq_encode_of_decodeN (by rw [h6, encode]) h
  · exact eq_encode_of_decodeN (by rw [h7, encode]) h

theorem decode_eq_command_iff (cw : Word) (i : Instr) : decode cw = .command i ↔ cw = encode i :=
  ⟨eq_encode_of_decode, fun h => h ▸ decode_encode i⟩

/-! ### Each format's mask and match -/

/-- The row of a format N command selects its one word. -/
theorem decode_eq_command_iff_maskN {i : Instr} {op : BitVec 8} (hi : encode i = encodeN op) (cw : Word) :
    decode cw = .command i ↔ cw &&& 0xFFFFFFFF#32 = encodeN op := by
  rw [decode_eq_command_iff, hi, eq_encodeN_iff, and_maskN_eq]

/-- The row of a format B command selects its words, one for each byte. -/
theorem exists_decode_eq_command_iff_maskB {i : Byte → Instr} {op : BitVec 8} (hi : ∀ b, encode (i b) = encodeB op b)
    (cw : Word) : (∃ b, decode cw = .command (i b)) ↔ cw &&& 0xFFFFFF00#32 = encodeB op 0#8 := by
  simp only [decode_eq_command_iff, hi, exists_eq_encodeB_iff, and_maskB_eq]

/-- The row of a format W command selects its words, one for each immediate. -/
theorem exists_decode_eq_command_iff_maskW {i : BitVec 24 → Instr} {op : BitVec 8}
    (hi : ∀ n, encode (i n) = encodeW op n) (cw : Word) :
    (∃ n, decode cw = .command (i n)) ↔ cw &&& 0xFF000000#32 = encodeW op 0#24 := by
  simp only [decode_eq_command_iff, hi, exists_eq_encodeW_iff, and_maskW_eq]

/-- Settles O3: each row by its format, from the word's fields. -/
theorem matchAndMaskSelectTheCommand : Obligations.MatchAndMaskSelectTheCommand := fun cw =>
  ⟨decode_eq_command_iff_maskN (op := 0x01#8) rfl cw,
   exists_decode_eq_command_iff_maskB (op := 0x02#8) (fun _ => rfl) cw,
   exists_decode_eq_command_iff_maskW (op := 0x03#8) (fun _ => rfl) cw,
   decode_eq_command_iff_maskN (op := 0x04#8) rfl cw,
   exists_decode_eq_command_iff_maskB (op := 0x05#8) (fun _ => rfl) cw,
   decode_eq_command_iff_maskN (op := 0x06#8) rfl cw,
   decode_eq_command_iff_maskN (op := 0x07#8) rfl cw⟩

/-! ### The illegal words -/

/-- A reserved opcode is none of the defined ones, which are 0x01 to 0x07. -/
theorem ne_defined_of_reserved {op k : BitVec 8} (h : op = 0x00#8 ∨ 0x08#8 ≤ op) (hlow : 0x01#8 ≤ k)
    (hhigh : k ≤ 0x07#8) : op ≠ k := by
  rintro rfl
  bv_omega

theorem decode_of_reservedOpcode {cw : Word} (h : opField cw = 0x00#8 ∨ 0x08#8 ≤ opField cw) :
    decode cw = .illegal .reservedOpcode := by
  simp [decode, ne_defined_of_reserved h]

theorem decode_of_reservedBitsN {cw : Word} (hop : opField cw ∈ [0x01#8, 0x04#8, 0x06#8, 0x07#8])
    (harg : argField cw ≠ 0#24) : decode cw = .illegal .reservedBits := by
  simp only [List.mem_cons, List.not_mem_nil, or_false] at hop
  obtain h | h | h | h := hop <;> simp [decode, decodeN, h, harg]

theorem decode_of_reservedBitsB {cw : Word} (hop : opField cw ∈ [0x02#8, 0x05#8])
    (hres : reservedField cw ≠ 0#16) : decode cw = .illegal .reservedBits := by
  simp only [List.mem_cons, List.not_mem_nil, or_false] at hop
  obtain h | h := hop <;> simp [decode, decodeB, h, hres]

end Sys2Proof

namespace Sys2Proof.Machine

theorem wordEffect_of_illegal {cw : Word} {why : Illegal} (h : decode cw = .illegal why) (e : Engine) :
    wordEffect cw e = .error e .illegalCommand := by
  rw [wordEffect, h]

/-- An illegal word is answered in every state by code 3 with data 0, and nothing else changes (R164, R161). -/
theorem step_offerWord_of_illegal {cw : Word} {why : Illegal} (h : decode cw = .illegal why) (s : State) :
    step (offerWord s cw) = .next (s.answered 0x30000000#32) := by
  rw [step_offerWord, wordEffect_of_illegal h]
  simp [Effect.error, CommandError.code, State.answered]

/-- Settles O5: the all-zero word has opcode 0x00 and the all-ones word has 0xFF, and every reserved opcode decodes as
illegal. -/
theorem reservedOpcodeIsIllegal : Obligations.ReservedOpcodeIsIllegal := by
  intro s cw h
  have hop : opField cw = 0x00#8 ∨ 0x08#8 ≤ opField cw := by
    obtain h | h | rfl | rfl := h
    · exact .inl h
    · exact .inr h
    · exact .inl (by decide)
    · exact .inr (by decide)
  exact step_offerWord_of_illegal (decode_of_reservedOpcode hop) s

/-- Settles O6: a reserved bit set decodes as illegal, and what the decoder does not find illegal it reads from the
command's own word. -/
theorem nonZeroReservedBitIsIllegal : Obligations.NonZeroReservedBitIsIllegal := by
  constructor
  · rintro s cw (⟨hop, harg⟩ | ⟨hop, hres⟩)
    · exact step_offerWord_of_illegal (decode_of_reservedBitsN hop harg) s
    · exact step_offerWord_of_illegal (decode_of_reservedBitsB hop hres) s
  · intro cw
    cases hd : decode cw with
    | command i => exact .inl ⟨i, rfl, eq_encode_of_decode hd⟩
    | illegal why => exact .inr (step_offerWord_of_illegal hd)

end Sys2Proof.Machine
end

section
/-! PROOFS. Key loading (spec/40_key_schedule.md R92) and the answers of `INIT` around it (R94, R95, R102): one rule for
each case of `KEYB` and `INIT`, and the statements assembled from them. -/

namespace Sys2Proof

/-- A format B word is the opcode's word with the operand byte in its low bits (R72). -/
theorem encodeB_eq_or_setWidth (op : BitVec 8) (b : Byte) : encodeB op b = encodeB op 0#8 ||| b.setWidth 32 := by
  have hb : b.toNat < 2 ^ 24 := by have := b.isLt; omega
  apply BitVec.eq_of_toNat_eq
  rw [BitVec.toNat_or, encodeB_toNat, encodeB_toNat, BitVec.toNat_setWidth_of_le (by decide), BitVec.toNat_zero,
    Nat.add_zero, Nat.mul_comm, Nat.two_pow_add_eq_or_of_lt hb]

end Sys2Proof

namespace Sys2Proof.Machine

theorem State.answer_eq_answered (s : State) (c : Code) (d : BitVec 24) :
    s.answer c d = s.answered (responseWord c d) := rfl

@[simp] theorem State.answered_engine (s : State) (w : Word) : (s.answered w).engine = s.engine := rfl

@[simp] theorem State.answered_responses (s : State) (w : Word) : (s.answered w).responses = s.responses ++ [w] := rfl

/-- A command in the phase that does not allow it answers code 2 with data 0 and changes nothing else (R163, R161). -/
theorem whenPhase_refused {p : Phase} {s : State} (h : s.engine.PHASE ≠ p) (k : Host.Outcome State Fault Refusal) :
    whenPhase p s k = .next (s.answered 0x20000000#32) := by
  rw [whenPhase_of_ne h, State.answer_eq_answered, responseWord_usageError]

theorem respond_ok_zero (s : State) : respond .ok 0#24 s = .next (s.answered 0x00000000#32) := by
  rw [respond, State.answer_eq_answered, responseWord_ok_zero]

/-! ### The key buffer -/

theorem keyHasRoom_iff (keylen : BitVec 9) : keyHasRoom keylen ↔ keylen.toNat < 256 := decide_eq_true_iff

/-- While `KEYLEN` is below 256 no bit of it is lost in the index `KEYB` writes (R52). -/
theorem eq_keyWriteIndex_iff {keylen : BitVec 9} (h : keylen.toNat < 256) (a : Byte) :
    a = keyWriteIndex keylen ↔ a.toNat = keylen.toNat := by
  rw [← BitVec.toNat_inj, keyWriteIndex, BitVec.toNat_setWidth, Nat.mod_eq_of_lt h]

/-- The appended byte stands at index `KEYLEN`, and every other entry is as before (R92). -/
theorem read_appendKeyByte_KEY {e : Engine} (h : e.KEYLEN.toNat < 256) (b a : Byte) :
    (appendKeyByte e b).KEY.read a = if a.toNat = e.KEYLEN.toNat then b else e.KEY.read a := by
  simp only [appendKeyByte_KEY, Memory.read_write, eq_keyWriteIndex_iff h]

/-- The count of a buffer with room does not wrap. -/
theorem toNat_keylen_succ {keylen : BitVec 9} (h : keylen.toNat < 256) : (keylen + 1#9).toNat = keylen.toNat + 1 := by
  bv_omega

/-! ### The cases of `KEYB` (R92) -/

theorem exec_keyb_of_room {s : State} (hp : s.engine.PHASE = .idle) (hk : s.engine.KEYLEN.toNat < 256) (b : Byte) :
    exec (.keyb b) s = .next ((s.withEngine (appendKeyByte s.engine b)).answered 0x00000000#32) := by
  rw [exec, execKeyb, whenPhase_of_eq hp, if_pos ((keyHasRoom_iff _).2 hk), respond_ok_zero]

theorem exec_keyb_of_full {s : State} (hp : s.engine.PHASE = .idle) (hk : 256 ≤ s.engine.KEYLEN.toNat) (b : Byte) :
    exec (.keyb b) s = .next (s.answered 0x00000000#32) := by
  rw [exec, execKeyb, whenPhase_of_eq hp, if_neg (mt (keyHasRoom_iff _).1 hk.not_gt), respond_ok_zero]

theorem exec_keyb_of_ready {s : State} (hp : s.engine.PHASE = .ready) (b : Byte) :
    exec (.keyb b) s = .next (s.answered 0x20000000#32) :=
  whenPhase_refused (by simp [hp]) _

/-! ### The cases of `INIT` (R94, R95, R102), and `XORB` in `IDLE` (R163) -/

theorem exec_init_of_keyed {s : State} (hp : s.engine.PHASE = .idle) (hk : s.engine.KEYLEN ≠ 0#9) :
    exec .init s = .next ((s.withEngine (construct s.engine)).answered 0x00000000#32) := by
  rw [exec, execInit, whenPhase_of_eq hp, if_neg hk, respond_ok_zero]

theorem exec_init_of_emptyKey {s : State} (hp : s.engine.PHASE = .idle) (hk : s.engine.KEYLEN = 0#9) :
    exec .init s = .next (s.answered 0x10000000#32) := by
  rw [exec, execInit, whenPhase_of_eq hp, if_pos hk, raise, respond, State.answer_eq_answered, CommandError.code,
    responseWord_invalidInput]

theorem exec_init_of_ready {s : State} (hp : s.engine.PHASE = .ready) :
    exec .init s = .next (s.answered 0x20000000#32) :=
  whenPhase_refused (by simp [hp]) _

theorem exec_xorb_of_idle {s : State} (hp : s.engine.PHASE = .idle) (b : Byte) :
    exec (.xorb b) s = .next (s.answered 0x20000000#32) :=
  whenPhase_refused (by simp [hp]) _

/-- One key byte after an empty buffer is enough for `INIT`, whatever was answered before (R95). -/
theorem exec_keyb_init_of_emptyKey {s : State} (hp : s.engine.PHASE = .idle) (hk : s.engine.KEYLEN = 0#9) (b : Byte) :
    ∃ t u, exec (.keyb b) s = .next t ∧ exec .init t = .next u ∧ u.engine.PHASE = .ready ∧
      u.responses = s.responses ++ [0x00000000#32, 0x00000000#32] := by
  have hroom : s.engine.KEYLEN.toNat < 256 := by simp [hk]
  have hkeyed : (appendKeyByte s.engine b).KEYLEN ≠ 0#9 := by simp [hk]
  exact ⟨_, _, exec_keyb_of_room hp hroom b, exec_init_of_keyed hp hkeyed, construct_PHASE _, by simp⟩

/-! ### The statements -/

/-- Settles O17: the word by its format, the illegal words by the decoder, and one rule for each of room, full and
`READY`. -/
theorem keybAppendsOneKeyByte : Obligations.KeybAppendsOneKeyByte := by
  refine ⟨encodeB_eq_or_setWidth 0x02#8, fun cw hop hres s => ?illegal, fun s b => ⟨fun hp hk => ?room,
    fun hp hk => exec_keyb_of_full hp hk b, fun hp => exec_keyb_of_ready hp b⟩⟩
  case illegal =>
    have hmem : opField cw ∈ [0x02#8, 0x05#8] := List.mem_cons.2 (.inl hop)
    exact step_offerWord_of_illegal (decode_of_reservedBitsB hmem hres) s
  case room =>
    exact ⟨(appendKeyByte s.engine b).KEY, exec_keyb_of_room hp hk b, toNat_keylen_succ hk,
      read_appendKeyByte_KEY hk b⟩

/-- Settles O20: the response to the failed `INIT` leaves the engine idle with an empty key, so the rules for that
engine give what follows. -/
theorem initWithEmptyKeyIsInvalidInput : Obligations.InitWithEmptyKeyIsInvalidInput := by
  intro s hp hk
  refine ⟨exec_init_of_emptyKey hp hk, fun b => ⟨exec_xorb_of_idle (s := s.answered 0x10000000#32) hp b, ?_⟩⟩
  obtain ⟨t, u, hkeyb, hinit, hready, hresponses⟩ :=
    exec_keyb_init_of_emptyKey (s := s.answered 0x10000000#32) hp hk b
  exact ⟨t, u, hkeyb, hinit, hready, by simp [hresponses]⟩

/-- Settles O21: `INIT` runs in `IDLE` alone. -/
theorem initOnLiveInstanceIsRefused : Obligations.InitOnLiveInstanceIsRefused := fun _ hp => exec_init_of_ready hp

end Sys2Proof.Machine
end

section
/-! PROOFS. The drop count (spec/41_keystream.md R110): the word of `SETDROP`, the commands that keep `DROP`, one rule for
`SETDROP` in each phase, and the statement assembled from them. -/

namespace Sys2Proof

/-- A format W word is the opcode's word with the immediate in its low bits (R73). -/
theorem encodeW_eq_or_setWidth (op : BitVec 8) (n : BitVec 24) :
    encodeW op n = encodeW op 0#24 ||| n.setWidth 32 := by
  apply BitVec.eq_of_toNat_eq
  rw [BitVec.toNat_or, encodeW_toNat, encodeW_toNat, BitVec.toNat_setWidth_of_le (by decide), BitVec.toNat_zero,
    Nat.add_zero, Nat.mul_comm, Nat.two_pow_add_eq_or_of_lt n.isLt]

/-- Format W has no reserved bit, so the opcode alone makes a word a `SETDROP` (R73, R110). -/
theorem decode_of_opField_setdrop {cw : Word} (h : opField cw = 0x03#8) :
    decode cw = .command (.setdrop (argField cw)) :=
  (decode_eq_command_iff cw _).2 ((eq_encodeW_fields cw).trans (by rw [h, encode]))

end Sys2Proof

namespace Sys2Proof.Machine

/-! ### The commands that keep `DROP` -/

/-- The construction reads `DROP` and does not write it (R94). -/
theorem construct_DROP (e : Engine) : (construct e).DROP = e.DROP := by
  obtain ⟨-, -, hdrop, -⟩ := discard_frame e.DROP.toNat (schedule e)
  exact hdrop

theorem effect_init_DROP (e : Engine) : (effect .init e).engine.DROP = e.DROP := by
  cases hp : e.PHASE with
  | ready => simp [effect, Effect.error, hp]
  | idle =>
    by_cases hk : e.KEYLEN = 0#9
    · simp [effect, Effect.error, hp, hk]
    · simp [effect, hp, hk, construct_DROP]

theorem effect_keyb_DROP (b : Byte) (e : Engine) : (effect (.keyb b) e).engine.DROP = e.DROP := by
  cases hp : e.PHASE with
  | ready => simp [effect, Effect.error, hp]
  | idle => cases hr : keyHasRoom e.KEYLEN <;> simp [effect, hp, hr]

/-! ### The cases of `SETDROP` (R110) -/

theorem exec_setdrop_of_idle {s : State} (hp : s.engine.PHASE = .idle) (n : BitVec 24) :
    exec (.setdrop n) s = .next ((s.withEngine { s.engine with DROP := n }).answered 0x00000000#32) := by
  rw [exec, execSetdrop, whenPhase_of_eq hp, respond_ok_zero]

theorem exec_setdrop_of_ready {s : State} (hp : s.engine.PHASE = .ready) (n : BitVec 24) :
    exec (.setdrop n) s = .next (s.answered 0x20000000#32) :=
  whenPhase_refused (by simp [hp]) _

/-- After a `SETDROP` the engine is still idle, and a second one leaves nothing of the first but its response. -/
theorem exec_setdrop_setdrop_of_idle {s t : State} (hp : s.engine.PHASE = .idle) {n : BitVec 24}
    (ht : exec (.setdrop n) s = .next t) (m : BitVec 24) :
    exec (.setdrop m) t = .next ⟨{ s.engine with DROP := m }, s.input,
      s.responses ++ [0x00000000#32, 0x00000000#32]⟩ := by
  rw [exec_setdrop_of_idle hp, Host.Outcome.next.injEq] at ht
  have hidle : t.engine.PHASE = .idle := ht ▸ hp
  rw [exec_setdrop_of_idle hidle, ← ht]
  simp [State.answered, State.withEngine]

/-! ### The statement -/

/-- Settles O18: the value of `DROP` after each command by its effect, the word by its format, and one rule for each
phase. -/
theorem setdropWritesTheDropCount : Obligations.SetdropWritesTheDropCount := by
  refine ⟨rfl, fun s => ⟨_, exec_eq_effect .clear s, rfl⟩, fun s i hi => ⟨_, exec_eq_effect i s, ?kept⟩,
    encodeW_eq_or_setWidth 0x03#8, fun cw hop => decode_of_opField_setdrop hop,
    fun s n => ⟨fun hp => ⟨exec_setdrop_of_idle hp n, fun m t ht => exec_setdrop_setdrop_of_idle hp ht m⟩,
      fun hp => exec_setdrop_of_ready hp n⟩⟩
  case kept =>
    obtain rfl | ⟨b, rfl⟩ := hi
    · exact effect_init_DROP s.engine
    · exact effect_keyb_DROP b s.engine

end Sys2Proof.Machine
end

section
/-! PROOFS. The XOR transform (spec/42_transform.md R130): what a generator step does to the entries of `S`, the rule for
`XORB` in `READY`, and the statement assembled from them. -/

namespace Sys2Proof.Machine

theorem respond_ok_zext24 (b : Byte) (s : State) : respond .ok (zext24 b) s = .next (s.answered (byteResponse b)) := by
  rw [respond, State.answer_eq_answered, responseWord_ok_zext24, byteResponse]

/-- `XORB` in `READY` makes one generator step and answers the operand xor the step's byte (R130). -/
theorem exec_xorb_of_ready {s : State} (hp : s.engine.PHASE = .ready) (b : Byte) :
    exec (.xorb b) s = .next
      ((s.withEngine (prgaNext s.engine)).answered (byteResponse (b ^^^ prgaOutput (prgaNext s.engine)))) := by
  rw [exec, execXorb, whenPhase_of_eq hp, respond_ok_zext24, prgaStep]

/-- A generator step exchanges the entries its new `I` and new `J` name and leaves every other one (R112). -/
theorem read_prgaNext_S (e : Engine) (a : Byte) :
    (prgaNext e).S.read a =
      if a = (prgaNext e).I then e.S.read (prgaNext e).J
      else if a = (prgaNext e).J then e.S.read (prgaNext e).I else e.S.read a :=
  Memory.read_swap _ _ _ _

/-- Settles O22: the word by its format, the illegal words by the decoder, and one rule for each phase; the `S` of the
`READY` case is the one the generator step leaves. -/
theorem xorbPullsOneKeystreamByte : Obligations.XorbPullsOneKeystreamByte := by
  refine ⟨encodeB_eq_or_setWidth 0x05#8, fun cw hop hres s => ?illegal,
    fun s b I J hI hJ => ⟨fun hp => ?ready, fun hp => exec_xorb_of_idle hp b⟩⟩
  case illegal =>
    have hmem : opField cw ∈ [0x02#8, 0x05#8] := by simp [show opField cw = 0x05#8 from hop]
    exact step_offerWord_of_illegal (decode_of_reservedBitsB hmem hres) s
  case ready =>
    obtain rfl : I = (prgaNext s.engine).I := hI
    obtain rfl : J = (prgaNext s.engine).J := hJ
    exact ⟨(prgaNext s.engine).S, exec_xorb_of_ready hp b, read_prgaNext_S s.engine⟩

end Sys2Proof.Machine
end

section
/-! PROOFS. The system commands (spec/43_system.md R146, R148, R150): one rule for each of `CLEAR`, `RDSTAT` and
`RDDROP`, the fields of the status response, the commands that keep `DROP` on a live instance, and the statements
assembled from them. -/

namespace Sys2Proof.Machine

/-- A word with an opcode of format N and any operand bit set is illegal in every state (R71, R77). -/
theorem step_offerWord_of_reservedBitsN {op : BitVec 8} (hmem : op ∈ [0x01#8, 0x04#8, 0x06#8, 0x07#8]) (cw : Word)
    (hop : opField cw = op) (harg : argField cw ≠ 0#24) (s : State) :
    step (offerWord s cw) = .next (s.answered 0x30000000#32) :=
  step_offerWord_of_illegal (decode_of_reservedBitsN (hop ▸ hmem) harg) s

/-! ### The three commands, in either phase -/

theorem exec_clear (s : State) : exec .clear s = .next ((s.withEngine clearedEngine).answered 0x00000000#32) := by
  rw [exec, execClear, respond_ok_zero]

theorem exec_rdstat (s : State) :
    exec .rdstat s = .next (s.answered (responseWord .ok (statusWord s.engine))) := by
  rw [exec, execRdstat, respond, State.answer_eq_answered]

theorem exec_rddrop (s : State) : exec .rddrop s = .next (s.answered (responseWord .ok s.engine.DROP)) := by
  rw [exec, execRddrop, respond, State.answer_eq_answered]

theorem responseWord_ok_toNat (d : BitVec 24) : (responseWord .ok d).toNat = d.toNat := by
  simp [responseWord_toNat, Code.bits]

/-! ### The status response (R29, R148) -/

theorem Phase.bit_eq_one_iff (p : Phase) : p.bit = 1#1 ↔ p = .ready := by
  cases p <;> decide

theorem statusWord_toNat (e : Engine) : (statusWord e).toNat = e.PHASE.bit.toNat * 2 ^ 16 + e.KEYLEN.toNat := by
  rw [statusWord, append_toNat, append_toNat, append_toNat, BitVec.toNat_ofNat]
  omega

/-- A field of the status response, by the two registers it is computed from. -/
theorem statusResponse_field_toNat (e : Engine) (start len : Nat) :
    ((responseWord .ok (statusWord e)).extractLsb' start len).toNat =
      (e.PHASE.bit.toNat * 2 ^ 16 + e.KEYLEN.toNat) / 2 ^ start % 2 ^ len := by
  rw [BitVec.extractLsb'_toNat, Nat.shiftRight_eq_div_pow, responseWord_ok_toNat, statusWord_toNat]

theorem statusResponse_keylen (e : Engine) : (responseWord .ok (statusWord e)).extractLsb' 0 9 = e.KEYLEN := by
  apply BitVec.eq_of_toNat_eq
  rw [statusResponse_field_toNat]
  have := e.KEYLEN.isLt
  omega

theorem statusResponse_low_zeros (e : Engine) : (responseWord .ok (statusWord e)).extractLsb' 9 7 = 0#7 := by
  apply BitVec.eq_of_toNat_eq
  rw [statusResponse_field_toNat, BitVec.toNat_ofNat]
  have := e.KEYLEN.isLt
  omega

theorem statusResponse_phase (e : Engine) : (responseWord .ok (statusWord e)).extractLsb' 16 1 = e.PHASE.bit := by
  apply BitVec.eq_of_toNat_eq
  rw [statusResponse_field_toNat]
  have := e.KEYLEN.isLt
  have := e.PHASE.bit.isLt
  omega

theorem statusResponse_high_zeros (e : Engine) : (responseWord .ok (statusWord e)).extractLsb' 17 15 = 0#15 := by
  apply BitVec.eq_of_toNat_eq
  rw [statusResponse_field_toNat, BitVec.toNat_ofNat]
  have := e.KEYLEN.isLt
  have := e.PHASE.bit.isLt
  omega

/-- A live instance has no key loaded (R26), so its status is the `PHASE` bit alone. -/
theorem statusResponse_of_ready {e : Engine} (hinv : e.Inv) (hp : e.PHASE = .ready) :
    responseWord .ok (statusWord e) = 0x00010000#32 := by
  obtain ⟨-, hkeylen, -⟩ := hinv.ready hp
  rw [statusWord, hp, hkeylen]
  decide

/-! ### The drop count of a live instance (R27) -/

/-- On a live instance `SETDROP` is refused, and no other command but `CLEAR` writes `DROP`. -/
theorem effect_DROP_of_ready {i : Instr} {e : Engine} (hp : e.PHASE = .ready) (hclear : i ≠ .clear) :
    (effect i e).engine.DROP = e.DROP := by
  cases i with
  | clear => exact absurd rfl hclear
  | keyb b => exact effect_keyb_DROP b e
  | setdrop n => simp [effect, Effect.error, hp]
  | init => exact effect_init_DROP e
  | xorb b => simp [effect, hp]
  | rdstat => rfl
  | rddrop => rfl

/-! ### The cleared engine (R35, R146) -/

theorem clearedEngine_eq_reset : clearedEngine = Engine.reset := rfl

/-- `CLEAR` writes what the cleared engine already holds. -/
theorem exec_clear_of_cleared {s : State} (h : s.engine = clearedEngine) :
    exec .clear s = .next (s.answered 0x00000000#32) := by
  rw [exec_clear, ← h, State.withEngine_self]

theorem exec_rdstat_of_cleared {s : State} (h : s.engine = clearedEngine) :
    exec .rdstat s = .next (s.answered 0x00000000#32) := by
  have hword : responseWord .ok (statusWord clearedEngine) = 0x00000000#32 := by decide
  rw [exec_rdstat, h, hword]

theorem exec_rddrop_of_cleared {s : State} (h : s.engine = clearedEngine) :
    exec .rddrop s = .next (s.answered 0x00000300#32) := by
  have hword : responseWord .ok clearedEngine.DROP = 0x00000300#32 := by decide
  rw [exec_rddrop, h, hword]

theorem exec_xorb_of_cleared {s : State} (h : s.engine = clearedEngine) (b : Byte) :
    exec (.xorb b) s = .next (s.answered 0x20000000#32) :=
  exec_xorb_of_idle (by rw [h, clearedEngine]) b

/-! ### The statements -/

/-- Settles O16: the items by the cleared engine, and one rule for each command given to it. -/
theorem clearDestroysTheInstanceAndTheKey : Obligations.ClearDestroysTheInstanceAndTheKey :=
  ⟨by decide, step_offerWord_of_reservedBitsN (op := 0x01#8) (by decide), fun s =>
    ⟨clearedEngine, exec_clear s, Memory.read_zeros, rfl, rfl, Memory.read_zeros, rfl, rfl, rfl,
      clearedEngine_eq_reset, fun _ hu =>
      ⟨exec_clear_of_cleared hu, exec_rdstat_of_cleared hu, exec_rddrop_of_cleared hu, exec_xorb_of_cleared hu⟩⟩⟩

/-- Settles O24: the response by `RDSTAT`'s rule, and its bits field by field. -/
theorem rdstatReportsPhaseAndKeylen : Obligations.RdstatReportsPhaseAndKeylen := by
  refine ⟨by decide, step_offerWord_of_reservedBitsN (op := 0x06#8) (by decide), fun s =>
    ⟨_, exec_rdstat s, statusResponse_keylen _, statusResponse_low_zeros _, ?phase, statusResponse_high_zeros _,
      fun hinv => statusResponse_of_ready hinv.engine⟩⟩
  case phase => rw [statusResponse_phase, Phase.bit_eq_one_iff]

/-- Settles O25: the response by `RDDROP`'s rule, and what a command leaves in `DROP` and `PHASE` by its effect. -/
theorem rddropReportsTheDropCount : Obligations.RddropReportsTheDropCount := by
  refine ⟨by decide, step_offerWord_of_reservedBitsN (op := 0x07#8) (by decide),
    fun s => ⟨_, exec_rddrop s, responseWord_ok_toNat _⟩,
    fun s => ⟨_, exec_eq_effect .init s, effect_init_DROP _⟩,
    fun s i hp hclear => ⟨_, exec_eq_effect i s, effect_DROP_of_ready hp hclear, ?phase⟩⟩
  case phase => exact (effect_PHASE_eq_ready_iff i _).2 (.inl ⟨hp, hclear⟩)

end Sys2Proof.Machine
end

section
/-! PROOFS. Errors (spec/60_exceptions.md R160 to R165): the code every command and every word answers, with the cause
of each, which words the opcode map leaves without a row, and the statements assembled from them. -/

namespace Sys2Proof

/-! ### The words some row of the opcode map matches (R74, R164) -/

theorem Instr.exists_iff {P : Instr → Prop} :
    (∃ i, P i) ↔ P .clear ∨ (∃ b, P (.keyb b)) ∨ (∃ n, P (.setdrop n)) ∨ P .init ∨ (∃ b, P (.xorb b)) ∨ P .rdstat ∨
      P .rddrop := by
  constructor
  · rintro ⟨i, hi⟩
    cases i with
    | clear => exact .inl hi
    | keyb b => exact .inr (.inl ⟨b, hi⟩)
    | setdrop n => exact .inr (.inr (.inl ⟨n, hi⟩))
    | init => exact .inr (.inr (.inr (.inl hi)))
    | xorb b => exact .inr (.inr (.inr (.inr (.inl ⟨b, hi⟩))))
    | rdstat => exact .inr (.inr (.inr (.inr (.inr (.inl hi)))))
    | rddrop => exact .inr (.inr (.inr (.inr (.inr (.inr hi)))))
  · rintro (h | ⟨b, h⟩ | ⟨n, h⟩ | h | ⟨b, h⟩ | h | h) <;> exact ⟨_, h⟩

/-- The opcode map's rows match exactly the words that decode to a command. -/
theorem Word.wellFormed_iff (cw : Word) : Word.wellFormed cw = true ↔ ∃ i, decode cw = .command i := by
  obtain ⟨hclear, hkeyb, hsetdrop, hinit, hxorb, hrdstat, hrddrop⟩ := matchAndMaskSelectTheCommand cw
  rw [Instr.exists_iff, hclear, hkeyb, hsetdrop, hinit, hxorb, hrdstat, hrddrop]
  simp [Word.wellFormed, opcodeTable, OpcodeRow.matchesWord]

end Sys2Proof

namespace Sys2Proof.Machine

/-! ### The response word of an error (R79, R160) -/

/-- Distinct codes have distinct numbers. -/
theorem Code.bits_inj {c d : Code} : c.bits = d.bits ↔ c = d := by
  constructor
  · cases c <;> cases d <;> decide
  · rintro rfl; rfl

theorem Code.bits_toNat_le (c : Code) : c.bits.toNat ≤ 3 := by
  cases c <;> decide

theorem responseWord_code_eq_iff {c k : Code} {d : BitVec 24} :
    (responseWord c d).extractLsb' 28 4 = k.bits ↔ c = k := by
  rw [responseWord_code, Code.bits_inj]

theorem responseWord_zero_low (c : Code) : (responseWord c 0#24).extractLsb' 0 28 = 0#28 := by
  cases c <;> decide

/-! ### The code of a command -/

/-- The order of checking of a decoded command (R165): the phase, then the key of an `INIT`. -/
theorem effect_code (i : Instr) (e : Engine) :
    (effect i e).code =
      if phaseAllows i e.PHASE = false then .usageError
      else if i = .init ∧ e.KEYLEN = 0#9 then .invalidInput
      else .ok := by
  cases i with
  | clear => rfl
  | rdstat => rfl
  | rddrop => rfl
  | keyb b => cases hp : e.PHASE <;> simp [effect, phaseAllows, Effect.error, CommandError.code, hp]
  | setdrop n => cases hp : e.PHASE <;> simp [effect, phaseAllows, Effect.error, CommandError.code, hp]
  | xorb b => cases hp : e.PHASE <;> simp [effect, phaseAllows, Effect.error, CommandError.code, hp]
  | init =>
    cases hp : e.PHASE with
    | ready => simp [effect, phaseAllows, Effect.error, CommandError.code, hp]
    | idle =>
      by_cases hk : e.KEYLEN = 0#9 <;> simp [effect, phaseAllows, Effect.error, CommandError.code, hp, hk]

theorem effect_code_eq_usageError_iff (i : Instr) (e : Engine) :
    (effect i e).code = .usageError ↔ phaseAllows i e.PHASE = false := by
  rw [effect_code]
  split_ifs with hphase hkey <;> simp [hphase]

theorem effect_code_eq_invalidInput_iff (i : Instr) (e : Engine) :
    (effect i e).code = .invalidInput ↔ i = .init ∧ e.PHASE = .idle ∧ e.KEYLEN = 0#9 := by
  by_cases hi : i = .init
  · subst hi
    cases hp : e.PHASE <;> simp [effect_code, phaseAllows, hp]
  · simp only [effect_code, hi, false_and, if_false]
    split_ifs <;> simp

theorem effect_code_ne_illegalCmd (i : Instr) (e : Engine) : (effect i e).code ≠ .illegalCmd := by
  rw [effect_code]
  split_ifs <;> decide

/-- The commands the permission table refuses, phase by phase (R163). -/
theorem phaseAllows_eq_false_iff (i : Instr) (p : Phase) :
    phaseAllows i p = false ↔
      (p = .idle ∧ ∃ b, i = .xorb b) ∨
        (p = .ready ∧ ((∃ b, i = .keyb b) ∨ (∃ n, i = .setdrop n) ∨ i = .init)) := by
  cases p <;> cases i <;> simp [phaseAllows]

/-- The response word is that of `USAGE_ERROR` for a refused command alone: an error has data 0 (R161). -/
theorem effect_response_eq_usageError_iff (i : Instr) (e : Engine) :
    responseWord (effect i e).code (effect i e).data = 0x20000000#32 ↔ phaseAllows i e.PHASE = false := by
  rw [← effect_code_eq_usageError_iff]
  constructor
  · intro h
    have hfield : (0x20000000#32).extractLsb' 28 4 = Code.usageError.bits := by decide
    exact responseWord_code_eq_iff.1 (h ▸ hfield)
  · intro hcode
    obtain ⟨-, hdata⟩ := effect_error i e (by simp [hcode])
    rw [hcode, hdata, responseWord_usageError]

/-! ### The code of a word -/

theorem wordEffect_of_command {cw : Word} {i : Instr} (h : decode cw = .command i) (e : Engine) :
    wordEffect cw e = effect i e := by
  rw [wordEffect, h]

theorem wordEffect_code_eq_invalidInput_iff (cw : Word) (e : Engine) :
    (wordEffect cw e).code = .invalidInput ↔
      decode cw = .command .init ∧ e.PHASE = .idle ∧ e.KEYLEN = 0#9 := by
  cases hd : decode cw with
  | command i => simp [wordEffect_of_command hd, effect_code_eq_invalidInput_iff]
  | illegal why => simp [wordEffect_of_illegal hd, Effect.error, CommandError.code]

theorem wordEffect_code_eq_usageError_iff (cw : Word) (e : Engine) :
    (wordEffect cw e).code = .usageError ↔
      (e.PHASE = .idle ∧ ∃ b, decode cw = .command (.xorb b)) ∨
        (e.PHASE = .ready ∧ ((∃ b, decode cw = .command (.keyb b)) ∨ (∃ n, decode cw = .command (.setdrop n)) ∨
          decode cw = .command .init)) := by
  cases hd : decode cw with
  | command i => simp [wordEffect_of_command hd, effect_code_eq_usageError_iff, phaseAllows_eq_false_iff]
  | illegal why => simp [wordEffect_of_illegal hd, Effect.error, CommandError.code]

theorem wordEffect_code_eq_illegalCmd_iff (cw : Word) (e : Engine) :
    (wordEffect cw e).code = .illegalCmd ↔ ∀ i, decode cw ≠ .command i := by
  cases hd : decode cw with
  | command i => simp [wordEffect_of_command hd, effect_code_ne_illegalCmd]
  | illegal why => simp [wordEffect_of_illegal hd, Effect.error, CommandError.code]

/-- A word answered with a code other than 0 leaves the engine as it was, and its response has data 0 (R161). -/
theorem wordEffect_of_response_code_ne_zero {cw : Word} {e : Engine}
    (h : (responseWord (wordEffect cw e).code (wordEffect cw e).data).extractLsb' 28 4 ≠ 0#4) :
    (wordEffect cw e).engine = e ∧ (wordEffect cw e).data = 0#24 :=
  wordEffect_error cw e (mt (responseWord_code_eq_iff (k := .ok)).2 h)

/-! ### The step on a word, by what it decodes to -/

theorem step_offerWord_of_command {cw : Word} {i : Instr} (h : decode cw = .command i) (s : State) :
    step (offerWord s cw) = exec i s := by
  rw [step_offerWord, wordEffect_of_command h, exec_eq_effect]

theorem step_offerWord_of_no_command {cw : Word} (h : ∀ i, decode cw ≠ .command i) (s : State) :
    step (offerWord s cw) = .next (s.answered 0x30000000#32) := by
  cases hd : decode cw with
  | command i => exact absurd hd (h i)
  | illegal why => exact step_offerWord_of_illegal hd s

/-! ### The statements -/

/-- Settles O7: the rows match exactly the words the decoder reads as commands, and only a word it does not is answered
with code 3. -/
theorem illegalityDependsOnTheWordAlone : Obligations.IllegalityDependsOnTheWordAlone := by
  intro s cw
  constructor
  · intro hfalse
    have hno : ∀ i, decode cw ≠ .command i := fun i hi => by simp [(Word.wellFormed_iff cw).2 ⟨i, hi⟩] at hfalse
    exact step_offerWord_of_no_command hno s
  · intro htrue
    obtain ⟨i, hi⟩ := (Word.wellFormed_iff cw).1 htrue
    refine ⟨_, _, step_offerWord s cw, rfl, fun hcode => ?_⟩
    have hillegal := responseWord_code_eq_iff (k := .illegalCmd).1 hcode
    exact (wordEffect_code_eq_illegalCmd_iff cw s.engine).1 hillegal i hi

/-- Settles O26: a code other than 0 is an error's, and an error's effect is the same engine and data 0. -/
theorem errorsChangeNothing : Obligations.ErrorsChangeNothing := by
  intro s cw
  refine ⟨_, _, step_offerWord s cw, rfl, rfl, fun hcode => ?_⟩
  obtain ⟨hengine, hdata⟩ := wordEffect_of_response_code_ne_zero hcode
  exact ⟨hengine, by rw [hdata, responseWord_zero_low]⟩

/-- Settles O27: the fields of the response, and the cause of each code by the effect of the word. -/
theorem responseCodesAndTheirCauses : Obligations.ResponseCodesAndTheirCauses := by
  intro s cw
  refine ⟨_, _, step_offerWord s cw, rfl, ?range, responseWord_reserved _ _,
    (responseWord_code_eq_iff (k := .invalidInput)).trans (wordEffect_code_eq_invalidInput_iff cw s.engine),
    (responseWord_code_eq_iff (k := .usageError)).trans (wordEffect_code_eq_usageError_iff cw s.engine),
    (responseWord_code_eq_iff (k := .illegalCmd)).trans (wordEffect_code_eq_illegalCmd_iff cw s.engine),
    fun hcode => ?data⟩
  case range =>
    rw [responseWord_code]
    exact Code.bits_toNat_le _
  case data =>
    obtain ⟨-, hdata⟩ := wordEffect_of_response_code_ne_zero hcode
    rw [responseWord_data, hdata]

/-- Settles O28: the response is `USAGE_ERROR`'s exactly for a refused command, and that command's effect is the same
engine. -/
theorem phasePermissionTable : Obligations.PhasePermissionTable := by
  intro s i
  have hiff := effect_response_eq_usageError_iff i s.engine
  refine ⟨_, _, exec_eq_effect i s, rfl, hiff, fun hr => ?_⟩
  have hcode : (effect i s.engine).code = .usageError := (effect_code_eq_usageError_iff i _).2 (hiff.1 hr)
  obtain ⟨hengine, -⟩ := effect_error i s.engine (by simp [hcode])
  exact hengine

/-- Settles O29: a word that is no command is answered by the decoder, and `INIT` by its rule for each phase. -/
theorem errorPriority : Obligations.ErrorPriority := by
  intro s
  have hinit : step (offerWord s 0x04000000#32) = exec .init s := step_offerWord_of_command (by decide) s
  refine ⟨fun cw hcw => ?no_command, step_offerWord_of_illegal (why := .reservedBits) (by decide) s,
    fun hp => hinit.trans (exec_init_of_ready hp), fun hp hk => hinit.trans (exec_init_of_emptyKey hp hk)⟩
  case no_command =>
    exact step_offerWord_of_no_command (fun i hi => hcw i (eq_encode_of_decode hi)) s

end Sys2Proof.Machine
end

section
/-! PROOFS. Hardware reset (spec/70_reset_and_hazards.md R185, R186): `rst` between two commands, `rst` while one is
executing and `CLEAR` all leave the one reset engine, and `CLEAR` alone answers. -/

namespace Sys2Proof.Machine

/-- `CLEAR` leaves the engine `rst` leaves, and answers `OK` with data 0 where `rst` is silent (R146, R185). -/
theorem exec_clear_eq_reset (s : State) :
    exec .clear s = .next ⟨Engine.reset, s.input, s.responses ++ [0x00000000#32]⟩ := by
  rw [exec_clear, clearedEngine_eq_reset]
  rfl

/-- A command that `rst` cuts short, whatever its word, is `rst` alone (R186, log entry 4). -/
theorem step_commandCutByReset_eq_step_reset {s : State} {cw : Word} {rest : List HostAction}
    (h : s.input = .commandCutByReset cw :: rest) :
    step s = step { s with input := .reset :: rest } := by
  have halone : step { s with input := .reset :: rest } = .next ⟨Engine.reset, rest, s.responses⟩ := step_reset rfl
  exact (step_commandCutByReset h).trans halone.symm

/-- Settles O14: the engine is `Engine.reset`, with one rule for each of the three ways to reach it. -/
theorem hardwareResetFromAnyState : Obligations.HardwareResetFromAnyState := by
  refine ⟨Engine.reset, ⟨Engine.reset_PHASE, rfl, Memory.read_zeros, rfl, Memory.read_zeros, rfl, rfl⟩, ?rst, ?cut,
    exec_clear_eq_reset⟩
  case rst => exact fun _ _ => step_reset
  case cut => exact fun _ _ _ => step_commandCutByReset

/-- Settles O15: the step's outcome names neither the word nor a response, and is that of `rst` alone. -/
theorem commandCutByResetLeavesNoTrace : Obligations.CommandCutByResetLeavesNoTrace :=
  fun _ _ _ h => ⟨step_commandCutByReset h, step_commandCutByReset_eq_step_reset h⟩

end Sys2Proof.Machine
end

section
/-! PROOFS. The port's encoding, both ways (spec/30_encoding.md): a word and its command (R70 to R75), a response word
and what is read from it (R79), an assembler line and its command (R81). -/

namespace Sys2Proof

/-- Settles O2: decoding undoes encoding, and a word that decodes to a command is put together again from its fields. -/
theorem wordIsACommandExactlyWhenItIsItsEncoding : Obligations.WordIsACommandExactlyWhenItIsItsEncoding :=
  decode_eq_command_iff

/-! ### The operand field of a command's word -/

theorem encodeN_operand (op : BitVec 8) : (encodeN op).toNat % 2 ^ 24 = 0 := by
  rw [encodeN_toNat, Nat.mul_mod_left]

theorem encodeB_operand (op : BitVec 8) (b : Byte) : (encodeB op b).toNat % 2 ^ 24 = b.toNat := by
  have := b.isLt
  rw [encodeB_toNat]
  omega

theorem encodeW_operand (op : BitVec 8) (n : BitVec 24) : (encodeW op n).toNat % 2 ^ 24 = n.toNat := by
  have := n.isLt
  rw [encodeW_toNat]
  omega

theorem encodeB_low_byte (op : BitVec 8) (b : Byte) : (encodeB op b).toNat % 2 ^ 8 = b.toNat := by
  have := b.isLt
  rw [encodeB_toNat]
  omega

/-- Settles O4: a word that decodes to a command is its encoding, whose low bits are the operand. -/
theorem operandsAreTheLowBitsOfTheWord : Obligations.OperandsAreTheLowBitsOfTheWord := by
  refine fun cw => ⟨fun b h => ?byte, fun n h => ?immediate⟩
  case byte =>
    obtain h | h := h
    · rw [eq_encode_of_decode h]
      exact (encodeB_low_byte _ b).symm
    · rw [eq_encode_of_decode h]
      exact (encodeB_low_byte _ b).symm
  case immediate =>
    rw [eq_encode_of_decode h]
    exact (encodeW_operand _ n).symm

/-- Settles O1: each word is the encoding of its command. -/
theorem sampleWordsDecode : Obligations.SampleWordsDecode :=
  ⟨decode_encode .clear, decode_encode (.keyb 0x4B#8), decode_encode (.setdrop 768#24),
    decode_encode (.setdrop 16777215#24), decode_encode .init, decode_encode (.xorb 0xFF#8), decode_encode .rdstat,
    decode_encode .rddrop⟩

/-! ### The operand of a line (R81) -/

/-- An operand is as its format asks exactly when it is absent in format N and in range in the other two. -/
theorem AsmLine.wellFormed_iff (l : AsmLine) :
    l.wellFormed = true ↔
      (l.mnemonic.format = .n ∧ l.operand = none) ∨ (l.mnemonic.format = .b ∧ ∃ b ≤ 255, l.operand = some b) ∨
        (l.mnemonic.format = .w ∧ ∃ n ≤ 16777215, l.operand = some n) := by
  unfold AsmLine.wellFormed
  cases hf : l.mnemonic.format with
  | n => cases l.operand <;> simp
  | b => cases l.operand <;> simp [Nat.lt_succ_iff]
  | w => cases l.operand <;> simp [Nat.lt_succ_iff]

end Sys2Proof

namespace Sys2Proof.Machine

/-! ### Reading a response (R79) -/

theorem codeOfBits_eq_some_iff (b : BitVec 4) (c : Code) : codeOfBits b = some c ↔ b = c.bits := by
  constructor
  · intro h
    unfold codeOfBits at h
    split_ifs at h with h0 h1 h2 h3 <;> cases h <;> assumption
  · rintro rfl
    cases c <;> rfl

/-- What is read from a word: its code and its data, if the other bits are as R79 has them. -/
theorem readResponse_eq_some_iff (w : Word) (c : Code) (d : BitVec 24) :
    readResponse w = some (c, d) ↔
      w.extractLsb' 28 4 = c.bits ∧ w.extractLsb' 24 4 = 0#4 ∧ w.extractLsb' 0 24 = d ∧ (c = .ok ∨ d = 0#24) := by
  rw [← codeOfBits_eq_some_iff, readResponse]
  cases codeOfBits (w.extractLsb' 28 4) with
  | none => simp
  | some k =>
    simp only [Option.ite_none_right_eq_some, Option.some.injEq, Prod.mk.injEq]
    constructor
    · rintro ⟨⟨hres, hdata⟩, rfl, rfl⟩
      exact ⟨rfl, hres, rfl, hdata⟩
    · rintro ⟨rfl, hres, rfl, hdata⟩
      exact ⟨⟨hres, hdata⟩, rfl, rfl⟩

/-- A response word is its three fields. -/
theorem eq_responseWord_of_fields {w : Word} {c : Code} {d : BitVec 24} (hcode : w.extractLsb' 28 4 = c.bits)
    (hres : w.extractLsb' 24 4 = 0#4) (hdata : w.extractLsb' 0 24 = d) : w = responseWord c d := by
  apply BitVec.eq_of_toNat_eq
  rw [responseWord_toNat, ← hcode, ← hdata]
  have hres := congrArg BitVec.toNat hres
  simp only [BitVec.extractLsb'_toNat, Nat.shiftRight_eq_div_pow, BitVec.toNat_ofNat] at hres ⊢
  have := w.isLt
  omega

/-- A response with data 0 unless its code is `OK` has the shape of R79. -/
theorem legalResponse_responseWord {c : Code} {d : BitVec 24} (h : c ≠ .ok → d = 0#24) :
    legalResponse (responseWord c d) := by
  refine ⟨?_, responseWord_reserved c d, fun hcode => ?_⟩
  · rw [responseWord_code]
    exact c.bits_toNat_le
  · rw [responseWord_data]
    exact h (mt (responseWord_code_eq_iff (k := .ok)).2 hcode)

/-- Settles O47: a response word has its fields, and a word read back is put together again from them. -/
theorem responseWordReadsBack : Obligations.ResponseWordReadsBack := by
  refine ⟨fun c d h => ?reads, fun w c d h => ?shape⟩
  case reads =>
    exact (readResponse_eq_some_iff _ c d).2
      ⟨responseWord_code c d, responseWord_reserved c d, responseWord_data c d, or_iff_not_imp_left.2 h⟩
  case shape =>
    obtain ⟨hcode, hres, hdata, hlegal⟩ := (readResponse_eq_some_iff w c d).1 h
    obtain rfl := eq_responseWord_of_fields hcode hres hdata
    exact ⟨rfl, legalResponse_responseWord (or_iff_not_imp_left.1 hlegal)⟩

/-! ### Assembling a line (R81) -/

theorem assembleLine_isSome_iff (l : AsmLine) : (assembleLine l).isSome ↔ l.wellFormed = true := by
  unfold assembleLine
  split_ifs with h
  · cases l.mnemonic <;> simp [h]
  · simp [h]

/-- A command a line assembles to has the line's mnemonic, and its word the line's operand. -/
theorem assembleLine_eq_some {l : AsmLine} {i : Instr} (h : assembleLine l = some i) :
    i.mnemonic = l.mnemonic ∧ (encode i).toNat % 2 ^ 24 = l.operand.getD 0 := by
  have hwf : l.wellFormed = true := (assembleLine_isSome_iff l).1 (by simp [h])
  rw [assembleLine, if_pos hwf] at h
  rw [AsmLine.wellFormed_iff] at hwf
  obtain ⟨m, o⟩ := l
  cases m
  case clear | init | rdstat | rddrop =>
    obtain rfl : o = none := by simpa [Mnemonic.format] using hwf
    obtain rfl := Option.some.inj h
    exact ⟨rfl, encodeN_operand _⟩
  case keyb | xorb =>
    obtain ⟨b, hb, rfl⟩ : ∃ b ≤ 255, o = some b := by simpa [Mnemonic.format] using hwf
    obtain rfl := Option.some.inj h
    exact ⟨rfl, (encodeB_operand _ _).trans (Nat.mod_eq_of_lt (Nat.lt_succ_of_le hb))⟩
  case setdrop =>
    obtain ⟨n, hn, rfl⟩ : ∃ n ≤ 16777215, o = some n := by simpa [Mnemonic.format] using hwf
    obtain rfl := Option.some.inj h
    exact ⟨rfl, (encodeW_operand _ _).trans (Nat.mod_eq_of_lt (Nat.lt_succ_of_le hn))⟩

/-- Settles O48: a line assembles exactly when it is well formed, and then to its mnemonic and its operand. -/
theorem lineAssemblesExactlyWhenItsOperandFits : Obligations.LineAssemblesExactlyWhenItsOperandFits := fun l =>
  ⟨(assembleLine_isSome_iff l).trans (AsmLine.wellFormed_iff l), fun _ h => assembleLine_eq_some h⟩

end Sys2Proof.Machine
end

section
/-! PROOFS. The step (spec/00_scope.md R8, R10): what it runs, everything a command can do to the engine as
one inversion, and the invariant every step keeps. -/

namespace Sys2Proof.Machine

/-! ### What a step runs -/

theorem step_of_no_input {s : State} (h : s.input = []) : step s = .next s := by
  rw [step, h]

theorem step_of_decode {s : State} {cw : Word} {rest : List HostAction} {i : Instr}
    (hinput : s.input = .command cw :: rest) (hcw : decode cw = .command i) :
    step s = exec i { s with input := rest } := by
  rw [step_command hinput, wordEffect_of_command hcw, exec_eq_effect]

theorem decode_tableWord {nbits w : Nat} {i : Instr} (h : decodeTableWord nbits w = some i) :
    decode (tableWord nbits w) = .command i := by
  unfold decodeTableWord at h
  split_ifs at h
  cases hd : decode (tableWord nbits w) with
  | command j => rw [hd] at h; rw [Option.some.inj h]
  | illegal why => rw [hd] at h; cases h

/-- Settles O8: the port's effect is that of the decoded command, which is what `exec` runs. -/
theorem stepRunsTheDecodedCommand : Obligations.StepRunsTheDecodedCommand := fun _ _ _ _ => step_of_decode

/-- Settles O9: the table word offered is at the port and decodes to the command. -/
theorem offeredTableWordRunsNext : Obligations.OfferedTableWordRunsNext := fun s _ _ _ h =>
  step_offerWord_of_command (decode_tableWord h) s

/-- Settles O10: with no action pending there is nothing to carry out. -/
theorem waitingEngineHoldsItsState : Obligations.WaitingEngineHoldsItsState := fun _ => step_of_no_input

/-- Settles O11: the engine and the response are the word's effect, which names nothing else of the state. -/
theorem commandEffectDependsOnEngineAndWordOnly : Obligations.CommandEffectDependsOnEngineAndWordOnly :=
  fun e cw => ⟨(wordEffect cw e).engine, responseWord (wordEffect cw e).code (wordEffect cw e).data,
    fun _ _ => step_command rfl⟩

/-- Settles O23: the operand of `XORB` stands in its response alone. -/
theorem xorbStateIgnoresTheData : Obligations.XorbStateIgnoresTheData := fun _ hp =>
  ⟨_, _, exec_xorb_of_ready hp⟩

/-! ### Everything a command can do to the engine -/

/-- The changes a command can make to the engine, each with the condition it is made under. -/
inductive EngineChange (e : Engine) : Instr → Engine → Prop
  | unchanged (i : Instr) : EngineChange e i e
  | clear : EngineChange e .clear clearedEngine
  | keyb (b : Byte) (hp : e.PHASE = .idle) (hk : e.KEYLEN.toNat < 256) : EngineChange e (.keyb b) (appendKeyByte e b)
  | setdrop (n : DropCount) (hp : e.PHASE = .idle) : EngineChange e (.setdrop n) { e with DROP := n }
  | init (hp : e.PHASE = .idle) (hk : e.KEYLEN ≠ 0#9) : EngineChange e .init (construct e)
  | xorb (b : Byte) (hp : e.PHASE = .ready) : EngineChange e (.xorb b) (prgaNext e)

theorem engineChange_effect (i : Instr) (e : Engine) : EngineChange e i (effect i e).engine := by
  cases i with
  | clear => exact .clear
  | rdstat => exact .unchanged _
  | rddrop => exact .unchanged _
  | keyb b =>
    cases hp : e.PHASE with
    | ready => simpa [effect, Effect.error, hp] using EngineChange.unchanged (.keyb b)
    | idle =>
      by_cases hk : e.KEYLEN.toNat < 256
      · simpa [effect, hp, keyHasRoom_iff, hk] using EngineChange.keyb b hp hk
      · simpa [effect, hp, keyHasRoom_iff, hk] using EngineChange.unchanged (.keyb b)
  | setdrop n =>
    cases hp : e.PHASE with
    | ready => simpa [effect, Effect.error, hp] using EngineChange.unchanged (.setdrop n)
    | idle => simpa [effect, hp] using EngineChange.setdrop n hp
  | init =>
    cases hp : e.PHASE with
    | ready => simpa [effect, Effect.error, hp] using EngineChange.unchanged .init
    | idle =>
      by_cases hk : e.KEYLEN = 0#9
      · simpa [effect, Effect.error, hp, hk] using EngineChange.unchanged .init
      · simpa [effect, hp, hk] using EngineChange.init hp hk
  | xorb b =>
    cases hp : e.PHASE with
    | idle => simpa [effect, Effect.error, hp] using EngineChange.unchanged (.xorb b)
    | ready => simpa [effect, hp] using EngineChange.xorb b hp

/-- What a word at the port can do: nothing to the engine, or what the command it decodes to can. -/
theorem engineChange_wordEffect (cw : Word) (e : Engine) :
    (wordEffect cw e).engine = e ∨ ∃ i, decode cw = .command i ∧ EngineChange e i (wordEffect cw e).engine := by
  cases hd : decode cw with
  | command i => exact .inr ⟨i, rfl, wordEffect_of_command hd e ▸ engineChange_effect i e⟩
  | illegal why => exact .inl (by rw [wordEffect_of_illegal hd, Effect.error])

/-! ### The invariant -/

theorem Engine.inv_reset : Engine.reset.Inv where
  wfS := Memory.wf_nil
  wfKEY := Memory.wf_nil
  keylen := by decide
  unloaded := fun a _ => Memory.read_nil a
  idle := fun _ => ⟨Memory.read_nil, rfl, rfl⟩
  ready := fun h => by cases h

theorem Engine.Inv.appendKeyByte {e : Engine} (hinv : e.Inv) (hp : e.PHASE = .idle) (hk : e.KEYLEN.toNat < 256)
    (b : Byte) : (appendKeyByte e b).Inv where
  wfS := hinv.wfS
  wfKEY := Memory.wf_write _ _ hinv.wfKEY
  keylen := by rw [appendKeyByte_KEYLEN, toNat_keylen_succ hk]; omega
  unloaded := fun a ha => by
    rw [appendKeyByte_KEYLEN, toNat_keylen_succ hk] at ha
    rw [read_appendKeyByte_KEY hk, if_neg (by omega), hinv.unloaded a (by omega)]
  idle := hinv.idle
  ready := fun h => by rw [appendKeyByte_PHASE, hp] at h; cases h

theorem Engine.Inv.setdrop {e : Engine} (hinv : e.Inv) (n : DropCount) : { e with DROP := n }.Inv where
  wfS := hinv.wfS
  wfKEY := hinv.wfKEY
  keylen := hinv.keylen
  unloaded := hinv.unloaded
  idle := hinv.idle
  ready := hinv.ready

theorem Memory.isPermutation_ksa (KEY : Memory) (keylen : BitVec 9) : (ksa KEY keylen).isPermutation := by
  rw [ksa_eq_ksaState]
  exact ksaState_isPermutation KEY keylen 256

/-- The construction makes a live engine with a permutation in `S` and no key, whatever key it is made from. -/
theorem Engine.inv_construct (e : Engine) : (construct e).Inv where
  wfS := discard_wf _ _ (Memory.wf_ksa e.KEY e.KEYLEN)
  wfKEY := Memory.wf_zeros
  keylen := by simp [construct]
  unloaded := fun a _ => Memory.read_zeros a
  idle := fun h => by rw [construct_PHASE] at h; cases h
  ready := fun _ => ⟨discard_isPermutation _ _ (Memory.isPermutation_ksa e.KEY e.KEYLEN), rfl, Memory.read_zeros⟩

theorem Engine.Inv.prgaNext {e : Engine} (hinv : e.Inv) (hp : e.PHASE = .ready) : (prgaNext e).Inv where
  wfS := Memory.wf_swap _ _ hinv.wfS
  wfKEY := hinv.wfKEY
  keylen := hinv.keylen
  unloaded := hinv.unloaded
  idle := fun h => by rw [prgaNext_PHASE, hp] at h; cases h
  ready := fun h =>
    have ⟨hperm, hkeylen, hkey⟩ := hinv.ready h
    ⟨Memory.isPermutation_swap _ _ hperm, hkeylen, hkey⟩

theorem EngineChange.inv {e f : Engine} {i : Instr} (h : EngineChange e i f) (hinv : e.Inv) : f.Inv := by
  cases h with
  | unchanged => exact hinv
  | clear => exact Engine.inv_reset
  | keyb b hp hk => exact hinv.appendKeyByte hp hk b
  | setdrop n => exact hinv.setdrop n
  | init => exact Engine.inv_construct e
  | xorb b hp => exact hinv.prgaNext hp

theorem wordEffect_inv (cw : Word) {e : Engine} (hinv : e.Inv) : (wordEffect cw e).engine.Inv := by
  obtain hsame | ⟨i, -, hchange⟩ := engineChange_wordEffect cw e
  · rwa [hsame]
  · exact hchange.inv hinv

theorem legalResponse_wordEffect (cw : Word) (e : Engine) :
    legalResponse (responseWord (wordEffect cw e).code (wordEffect cw e).data) :=
  legalResponse_responseWord fun hcode => (wordEffect_error cw e hcode).2

/-- Settles O44: a memory with nothing listed is canonical and reads as zeros. -/
theorem resetSatisfiesTheInvariant : Obligations.ResetSatisfiesTheInvariant :=
  ⟨Engine.inv_reset, fun _ h => nomatch h⟩

/-- Settles O45: waiting changes nothing, a word makes one of the engine's changes and adds a legal response, and both
resets leave the reset engine. -/
theorem stepKeepsTheInvariant : Obligations.StepKeepsTheInvariant := by
  intro s hinv
  cases hinput : s.input with
  | nil => exact ⟨s, step_of_no_input hinput, hinv⟩
  | cons a rest =>
    cases a with
    | command cw =>
      refine ⟨_, step_command hinput, wordEffect_inv cw hinv.engine, fun w hw => ?_⟩
      obtain hold | hnew := List.mem_append.1 hw
      · exact hinv.responses w hold
      · exact List.mem_singleton.1 hnew ▸ legalResponse_wordEffect cw s.engine
    | reset => exact ⟨_, step_reset hinput, Engine.inv_reset, hinv.responses⟩
    | commandCutByReset cw => exact ⟨_, step_commandCutByReset hinput, Engine.inv_reset, hinv.responses⟩

/-- Settles O13: the values as they stand in `Engine.reset`, whose memories list nothing. -/
theorem resetValues : Obligations.ResetValues :=
  ⟨Engine.reset_PHASE, rfl, Memory.read_nil, rfl, Memory.read_nil, rfl, rfl⟩

end Sys2Proof.Machine
end

section
/-! PROOFS. The access table (spec/10_state.md R36) and its two consequences: nothing but `XORB` and `CLEAR` touches a
live instance (spec/42_transform.md R134), and nothing but `XORB` shows its secrets (spec/43_system.md R152). -/

namespace Sys2Proof.Machine

/-- Settles O31: each change an engine can undergo writes the items of its command's column. -/
theorem accessTableWrites : Obligations.AccessTableWrites := by
  intro s i
  refine ⟨_, exec_eq_effect i s, rfl, ?_⟩
  have hchange := engineChange_effect i s.engine
  dsimp only
  generalize (effect i s.engine).engine = f at hchange ⊢
  cases hchange with
  | unchanged => simp
  | clear => simp
  | keyb => simp
  | setdrop => simp
  | init => simp [construct_DROP]
  | xorb => simp

/-- Settles O32: every change but those of `CLEAR` and `XORB` is made in `IDLE` alone. -/
theorem onlyXorbAndClearTouchALiveInstance : Obligations.OnlyXorbAndClearTouchALiveInstance := by
  intro s cw hp hclear hxorb
  have hsame : (wordEffect cw s.engine).engine = s.engine := by
    obtain hsame | ⟨i, hi, hchange⟩ := engineChange_wordEffect cw s.engine
    · exact hsame
    · generalize (wordEffect cw s.engine).engine = f at hchange ⊢
      cases hchange with
      | unchanged => rfl
      | clear => exact absurd hi hclear
      | xorb b => exact absurd hi (hxorb b)
      | keyb b hidle => simp [hp] at hidle
      | setdrop n hidle => simp [hp] at hidle
      | init hidle => simp [hp] at hidle
  exact ⟨_, by rw [step_offerWord, hsame]; rfl⟩

/-- The response of a command other than `XORB` is computed from `KEYLEN`, `DROP` and `PHASE` (R152). -/
theorem effect_response_congr {e f : Engine} {i : Instr} (hkeylen : e.KEYLEN = f.KEYLEN) (hdrop : e.DROP = f.DROP)
    (hphase : e.PHASE = f.PHASE) (hi : ∀ b, i ≠ .xorb b) :
    (effect i e).code = (effect i f).code ∧ (effect i e).data = (effect i f).data := by
  refine ⟨by rw [effect_code, effect_code, hphase, hkeylen], ?_⟩
  cases i with
  | xorb b => exact absurd rfl (hi b)
  | rddrop => exact hdrop
  | rdstat => simp [effect, statusWord, hphase, hkeylen]
  | clear => rfl
  | keyb b => cases hp : f.PHASE <;> simp [effect, Effect.error, hphase, hp]
  | setdrop n => cases hp : f.PHASE <;> simp [effect, Effect.error, hphase, hp]
  | init => cases hp : f.PHASE <;> simp [effect, Effect.error, hphase, hp, hkeylen, apply_ite]

theorem wordEffect_response_congr {e f : Engine} {cw : Word} (hkeylen : e.KEYLEN = f.KEYLEN) (hdrop : e.DROP = f.DROP)
    (hphase : e.PHASE = f.PHASE) (hcw : ∀ b, decode cw ≠ .command (.xorb b)) :
    (wordEffect cw e).code = (wordEffect cw f).code ∧ (wordEffect cw e).data = (wordEffect cw f).data := by
  cases hd : decode cw with
  | command i =>
    rw [wordEffect_of_command hd, wordEffect_of_command hd]
    exact effect_response_congr hkeylen hdrop hphase fun b hb => hcw b (hb ▸ hd)
  | illegal why => simp [wordEffect_of_illegal hd, Effect.error]

/-- Settles O33: the response of a word that is no `XORB` names none of `S`, `I`, `J` and `KEY`. -/
theorem secretsShowOnlyThroughXorb : Obligations.SecretsShowOnlyThroughXorb := by
  intro s u cw hkeylen hdrop hphase hcw
  obtain ⟨hcode, hdata⟩ := wordEffect_response_congr hkeylen hdrop hphase hcw
  exact ⟨_, _, _, step_offerWord s cw, step_offerWord u cw, rfl, by rw [hcode, hdata]⟩

end Sys2Proof.Machine
end

section
/-! PROOFS. The key schedule and the generator step (spec/40_key_schedule.md R100, R101; spec/41_keystream.md R112,
R113): the schedule reads a key only at `idx mod KEYLEN`, and what one step does. -/

namespace Sys2Proof.Machine

/-! ### The key schedule -/

theorem keylen_toNat_pos {n : BitVec 9} (h : n ≠ 0#9) : 0 < n.toNat := by
  bv_omega

/-- The key byte that schedule step `idx` adds (R96). -/
def scheduledByte (KEY : Memory) (keylen : BitVec 9) (idx : Nat) : Byte :=
  KEY.read (BitVec.ofNat 8 (idx % keylen.toNat))

theorem accumulatorIndex_ofNat (S KEY : Memory) (kj : Byte) (keylen : BitVec 9) {idx : Nat} (h : idx < 256) :
    accumulatorIndex S kj (BitVec.ofNat 8 idx) KEY keylen =
      kj + S.read (BitVec.ofNat 8 idx) + scheduledByte KEY keylen idx := by
  rw [accumulatorIndex, keyReadIndex, scheduledByte, BitVec.toNat_ofNat, Nat.mod_eq_of_lt h]

/-- The schedule sees its key through the bytes its steps add. -/
theorem ksaState_congr {K L : Memory} {k l : BitVec 9}
    (h : ∀ idx < 256, scheduledByte K k idx = scheduledByte L l idx) {n : Nat} (hn : n ≤ 256) :
    ksaState K k n = ksaState L l n := by
  induction n with
  | zero => rfl
  | succ n ih =>
    have hlt : n < 256 := hn
    simp only [ksaState_succ, ksaStep, ih hlt.le, accumulatorIndex_ofNat _ _ _ _ hlt, h n hlt]

theorem ksa_congr {K L : Memory} {k l : BitVec 9} (h : ∀ idx < 256, scheduledByte K k idx = scheduledByte L l idx) :
    ksa K k = ksa L l := by
  rw [ksa_eq_ksaState, ksa_eq_ksaState, ksaState_congr h le_rfl]

/-- Every index the schedule reads is below the length of the key. -/
theorem scheduledByte_congr {K L : Memory} {n : BitVec 9} (hn : n ≠ 0#9)
    (h : ∀ a : Byte, a.toNat < n.toNat → K.read a = L.read a) (idx : Nat) :
    scheduledByte K n idx = scheduledByte L n idx := by
  have hpos : 0 < n.toNat := keylen_toNat_pos hn
  exact h _ ((Nat.mod_le _ _).trans_lt (Nat.mod_lt idx hpos))

/-- A key written out `m` times in a row gives its steps the bytes of the key (R101). -/
theorem scheduledByte_repeated {K L : Memory} {k : BitVec 9} {m : Nat} (hk : k ≠ 0#9) (hm : 1 ≤ m)
    (hfit : m * k.toNat ≤ 256)
    (h : ∀ a < m * k.toNat, L.read (BitVec.ofNat 8 a) = K.read (BitVec.ofNat 8 (a % k.toNat))) (idx : Nat) :
    scheduledByte L (BitVec.ofNat 9 (m * k.toNat)) idx = scheduledByte K k idx := by
  have hpos : 0 < m * k.toNat := Nat.mul_pos hm (keylen_toNat_pos hk)
  have hlen : (BitVec.ofNat 9 (m * k.toNat)).toNat = m * k.toNat := by
    rw [BitVec.toNat_ofNat, Nat.mod_eq_of_lt (by omega)]
  rw [scheduledByte, hlen, h _ (Nat.mod_lt _ hpos), Nat.mod_mul_left_mod, scheduledByte]

/-- Settles O34: every step is a swap, and the steps read the key below its length alone. -/
theorem scheduleIsAPermutationOfTheKeyAlone : Obligations.ScheduleIsAPermutationOfTheKeyAlone := fun K _ n hn =>
  ⟨Memory.isPermutation_ksa K n, fun h => ksa_congr fun idx _ => scheduledByte_congr hn h idx⟩

/-- Settles O35: equivalent keys give each step the same byte, and a key repeated is equivalent to the key. -/
theorem equivalentKeysGiveTheSameSchedule : Obligations.EquivalentKeysGiveTheSameSchedule :=
  ⟨fun _ _ _ _ _ _ h => ksa_congr h, fun _ _ _ _ hk hm hfit h =>
    ksa_congr fun idx _ => scheduledByte_repeated hk hm hfit h idx⟩

/-! ### One generator step (R112, R113) -/

/-- The two entries a step exchanges have the same sum before and after. -/
theorem prgaNext_sum (e : Engine) :
    (prgaNext e).S.read (prgaNext e).I + (prgaNext e).S.read (prgaNext e).J =
      e.S.read (prgaNext e).I + e.S.read (prgaNext e).J := by
  rw [read_prgaNext_S e (prgaNext e).I, if_pos rfl, read_prgaNext_S e (prgaNext e).J, if_pos rfl]
  split_ifs with h
  · rw [h]
  · exact BitVec.add_comm _ _

/-- The output is the new `S` at the sum of the two entries as they were before the swap. -/
theorem prgaOutput_prgaNext (e : Engine) :
    prgaOutput (prgaNext e) = (prgaNext e).S.read (e.S.read (prgaNext e).I + e.S.read (prgaNext e).J) := by
  rw [prgaOutput, outputIndex, prgaNext_sum]

/-- With the new `I` and `J` equal the swap exchanges an entry with itself. -/
theorem read_prgaNext_S_of_eq {e : Engine} (h : (prgaNext e).I = (prgaNext e).J) (a : Byte) :
    (prgaNext e).S.read a = e.S.read a := by
  rw [read_prgaNext_S, ← h]
  split_ifs with ha
  · rw [ha]
  · rfl

theorem prgaNext_J_eq_iff (e : Engine) : (prgaNext e).J = e.J ↔ e.S.read (prgaNext e).I = 0#8 := by
  rw [prgaNext_J, nextJ, prgaNext_I, BitVec.add_right_eq_self]

/-- Settles O36: the cursor by the step's definition, the entries of `S` by the law of the swap. -/
theorem generatorStepDetails : Obligations.GeneratorStepDetails := by
  intro e I J hI hJ
  obtain rfl : I = (prgaNext e).I := hI
  obtain rfl : J = (prgaNext e).J := hJ
  refine ⟨rfl, rfl, prgaNext_J_eq_iff e, read_prgaNext_S e, prgaNext_sum e, prgaOutput_prgaNext e, fun h => ?corner,
    Memory.isPermutation_swap _ _⟩
  case corner =>
    have hsame := read_prgaNext_S_of_eq h
    refine ⟨hsame, ?_⟩
    rw [prgaStep, prgaOutput_prgaNext, hsame, ← h]

end Sys2Proof.Machine
end

section
/-! PROOFS. The machine against the source's cipher (spec/40_key_schedule.md R94, R97; spec/41_keystream.md R112, R115,
R117): the generator an engine holds, which the machine's steps and its schedule move as `Reference` does. -/

namespace Sys2Proof.Reference

/-! ### Generators and their bytes -/

/-- The next `n` bytes of a generator. -/
def Gen.bytes (g : Gen) (n : Nat) : List Byte := (List.range n).map fun k => (Gen.next^[k + 1] g).output

@[simp] theorem Gen.length_bytes (g : Gen) (n : Nat) : (g.bytes n).length = n := by
  simp [Gen.bytes]

theorem Gen.bytes_succ (g : Gen) (n : Nat) : g.bytes (n + 1) = g.next.output :: g.next.bytes n := by
  simp [Gen.bytes, List.range_succ_eq_map, Function.comp_def]

/-- The first `n` bytes removed, a generator gives those it gives after `n` steps. -/
theorem Gen.drop_bytes (g : Gen) (n m : Nat) : (g.bytes (n + m)).drop n = (Gen.next^[n] g).bytes m := by
  have hlen : ((List.range n).map fun k => (Gen.next^[k + 1] g).output).length = n := g.length_bytes n
  rw [Gen.bytes, List.range_add, List.map_append, List.drop_left' hlen, Gen.bytes, List.map_map]
  refine List.map_congr_left fun k _ => ?_
  rw [Function.comp_apply, Nat.add_assoc, Nat.add_comm n, Function.iterate_add_apply]

/-- The first cursor index counts the steps. -/
theorem Gen.iterate_next_i (g : Gen) (n : Nat) : (Gen.next^[n] g).i = g.i + BitVec.ofNat 8 n := by
  induction n with
  | zero => simp
  | succ n ih => rw [Function.iterate_succ_apply', Gen.next, ih, BitVec.ofNat_add, BitVec.add_assoc]

theorem genAt_eq_iterate (key : List Byte) (n : Nat) : genAt key n = Gen.next^[n] (genAt key 0) := by
  induction n with
  | zero => rfl
  | succ n ih => rw [Function.iterate_succ_apply', ← ih, genAt]

/-- A buffer xor a keystream, byte by byte, as long as the shorter. -/
def xorBytes (data ks : List Byte) : List Byte := List.zipWith (fun d k => d ^^^ k) data ks

theorem length_xorBytes {data ks : List Byte} (h : ks.length = data.length) :
    (xorBytes data ks).length = data.length := by
  rw [xorBytes, List.length_zipWith, h, Nat.min_self]

/-- The source's transform is the xor of the data with the generator's next bytes. -/
theorem transform_eq_xorBytes (key : List Byte) (drop : Nat) (data : List Byte) :
    transform key drop data = xorBytes data ((genAt key drop).bytes data.length) := by
  rw [transform, xorBytes, Gen.bytes, List.zipWith_map_right]
  congr 1
  funext d k
  rw [keystream, genAt_eq_iterate, genAt_eq_iterate key drop, ← Function.iterate_add_apply,
    show drop + k + 1 = k + 1 + drop by omega]

end Sys2Proof.Reference

namespace Sys2Proof.Machine

open Reference (Gen scheduleAt genAt)

/-- The generator an engine holds. -/
def Engine.gen (e : Engine) : Gen := ⟨e.S.read, e.I, e.J⟩

theorem Memory.read_swap_eq (S : Memory) (a b : Byte) : (S.swap a b).read = Reference.swap S.read a b :=
  funext (Memory.read_swap S a b)

theorem gen_prgaNext (e : Engine) : (prgaNext e).gen = e.gen.next := by
  rw [Engine.gen, prgaNext_S, Memory.read_swap_eq]
  rfl

theorem gen_discard (n : Nat) (e : Engine) : (discard n e).gen = Gen.next^[n] e.gen := by
  induction n generalizing e with
  | zero => rfl
  | succ n ih => rw [discard_succ, ih, gen_prgaNext, Function.iterate_succ_apply]

theorem prgaOutput_eq_output (e : Engine) : prgaOutput e = e.gen.output := rfl

/-! ### The schedule -/

/-- The key bytes in `KEY` are those of `key` wherever the schedule reads one (R93, R96). -/
def Engine.HoldsKey (e : Engine) (key : List Byte) : Prop :=
  ∀ idx < 256, scheduledByte e.KEY e.KEYLEN idx = key.getD (idx % key.length) 0#8

theorem holdsKey_key {e : Engine} (h : e.KEYLEN ≠ 0#9) : e.HoldsKey e.key := by
  intro idx _
  have hlt : idx % e.KEYLEN.toNat < e.KEYLEN.toNat := Nat.mod_lt _ (keylen_toNat_pos h)
  simp [Engine.key, scheduledByte, List.getD_eq_getElem?_getD, hlt]

theorem ksaState_eq_scheduleAt {e : Engine} {key : List Byte} (h : e.HoldsKey key) {n : Nat} (hn : n ≤ 256) :
    (ksaState e.KEY e.KEYLEN n).1.read = (scheduleAt key n).1 ∧
      (ksaState e.KEY e.KEYLEN n).2 = (scheduleAt key n).2 := by
  induction n with
  | zero => exact ⟨funext Memory.read_identity, rfl⟩
  | succ n ih =>
    have hlt : n < 256 := hn
    obtain ⟨hS, hj⟩ := ih hlt.le
    rw [ksaState_succ, ksaStep, accumulatorIndex_ofNat _ _ _ _ hlt, h n hlt, hS, hj, Memory.read_swap_eq, hS]
    exact ⟨rfl, rfl⟩

theorem gen_schedule {e : Engine} {key : List Byte} (h : e.HoldsKey key) : (schedule e).gen = genAt key 0 := by
  obtain ⟨hS, -⟩ := ksaState_eq_scheduleAt h le_rfl
  rw [Engine.gen, schedule_S, ksa_eq_ksaState, hS]
  rfl

theorem gen_becomeReady (e : Engine) : (becomeReady e).gen = e.gen := rfl

/-- `INIT` makes the engine hold the source's generator for its key, after `DROP` steps (R94). -/
theorem gen_construct {e : Engine} {key : List Byte} (h : e.HoldsKey key) :
    (construct e).gen = genAt key e.DROP.toNat := by
  rw [construct, gen_becomeReady, gen_discard, gen_schedule h, ← Reference.genAt_eq_iterate]

/-- Settles O19: the construction's generator is the source's, and the rest of the engine is as `INIT` leaves it. -/
theorem initBuildsTheScheduledGenerator : Obligations.InitBuildsTheScheduledGenerator := by
  intro s hp hk
  have hgen := gen_construct (holdsKey_key hk)
  refine ⟨(construct s.engine).S, Memory.zeros, ?_, fun a => ?_, Memory.read_zeros⟩
  · rw [exec_init_of_keyed hp hk, ← hgen]
    conv_rhs => rw [← construct_DROP]
    rfl
  · rw [← hgen]
    rfl

/-- The cursor starts at 0 and every discarded step advances it by one (R117). -/
theorem construct_I (e : Engine) : (construct e).I = BitVec.ofNat 8 e.DROP.toNat :=
  calc (construct e).gen.i
    _ = (Gen.next^[e.DROP.toNat] (schedule e).gen).i := by rw [construct, gen_becomeReady, gen_discard]
    _ = 0#8 + BitVec.ofNat 8 e.DROP.toNat := Gen.iterate_next_i _ _
    _ = BitVec.ofNat 8 e.DROP.toNat := BitVec.zero_add _

/-- Settles O37: the constructed engine's cursor is `DROP` cut to eight bits. -/
theorem cursorAfterDiscard : Obligations.CursorAfterDiscard := fun _ hp hk =>
  ⟨_, exec_init_of_keyed hp hk, (congrArg BitVec.toNat (construct_I _)).trans (BitVec.toNat_ofNat _ _)⟩

end Sys2Proof.Machine
end

section
/-! PROOFS. Runs of commands (spec/00_scope.md section 7): what a sequence of words at the port is answered and leaves,
and how such exchanges are put together. -/

namespace Sys2Proof.Machine

/-- No step stops the machine (R201, log entry 7). -/
theorem exists_step_eq_next (s : State) : ∃ t, step s = .next t := by
  cases hinput : s.input with
  | nil => exact ⟨_, step_of_no_input hinput⟩
  | cons a rest =>
    cases a with
    | command cw => exact ⟨_, step_command hinput⟩
    | reset => exact ⟨_, step_reset hinput⟩
    | commandCutByReset cw => exact ⟨_, step_commandCutByReset hinput⟩

theorem exists_run_eq_next (n : Nat) (s : State) : ∃ t, run n s = .next t := by
  induction n generalizing s with
  | zero => exact ⟨s, run_zero s⟩
  | succ n ih =>
    obtain ⟨t, ht⟩ := exists_step_eq_next s
    rw [run_succ_of_step n ht]
    exact ih t

/-- The words, given to an engine one after the other, leave the engine `f` and are answered by `rs`, whatever the host
does afterwards and whatever was answered before. -/
def Exchange (words : List Word) (e f : Engine) (rs : List Word) : Prop :=
  ∀ (rest : List HostAction) (told : List Word),
    run words.length ⟨e, words.map .command ++ rest, told⟩ = .next ⟨f, rest, told ++ rs⟩

theorem exchange_nil (e : Engine) : Exchange [] e e [] := fun rest told => by
  rw [List.append_nil]
  rfl

theorem exchange_singleton (cw : Word) (e : Engine) :
    Exchange [cw] e (wordEffect cw e).engine [responseWord (wordEffect cw e).code (wordEffect cw e).data] :=
  fun rest told => run_succ_of_step 0 (step_command (s := ⟨e, .command cw :: rest, told⟩) rfl)

theorem Exchange.append {v w : List Word} {e f g : Engine} {rs ts : List Word} (hv : Exchange v e f rs)
    (hw : Exchange w f g ts) : Exchange (v ++ w) e g (rs ++ ts) := by
  intro rest told
  rw [List.length_append, List.map_append, List.append_assoc, run_add_of_run _ (hv _ _), hw, List.append_assoc]

/-- Every sequence of words makes an exchange, with one response to each word. -/
theorem exists_exchange (words : List Word) (e : Engine) :
    ∃ f rs, Exchange words e f rs ∧ rs.length = words.length := by
  induction words generalizing e with
  | nil => exact ⟨e, [], exchange_nil e, rfl⟩
  | cons cw words ih =>
    obtain ⟨f, rs, hwords, hlen⟩ := ih (wordEffect cw e).engine
    exact ⟨f, _, (exchange_singleton cw e).append hwords, by simp [hlen]⟩

/-- Settles O12: no step stops, and a sequence of words is one exchange. -/
theorem everyCommandIsAnsweredOnce : Obligations.EveryCommandIsAnsweredOnce := by
  refine ⟨exists_run_eq_next, fun words rest s hinput => ?_⟩
  obtain ⟨f, rs, hwords, hlen⟩ := exists_exchange words s.engine
  refine ⟨⟨f, rest, s.responses ++ rs⟩, rs, ?_, rfl, rfl, hlen⟩
  rw [← hwords rest s.responses, ← hinput]

/-! ### Exchanges of commands -/

/-- The exchange made by a sequence of commands. -/
def Answers (is : List Instr) (e f : Engine) (rs : List Word) : Prop := Exchange (is.map encode) e f rs

theorem answers_nil (e : Engine) : Answers [] e e [] := exchange_nil e

theorem Answers.append {is js : List Instr} {e f g : Engine} {rs ts : List Word} (hi : Answers is e f rs)
    (hj : Answers js f g ts) : Answers (is ++ js) e g (rs ++ ts) := by
  rw [Answers, List.map_append]
  exact Exchange.append hi hj

/-- One command, by its rule. -/
theorem answers_singleton {i : Instr} {e f : Engine} {r : Word}
    (h : ∀ s : State, s.engine = e → exec i s = .next ((s.withEngine f).answered r)) : Answers [i] e f [r] :=
  fun rest told => run_succ_of_step 0 <|
    (step_of_decode (s := ⟨e, .command (encode i) :: rest, told⟩) rfl (decode_encode i)).trans (h _ rfl)

/-- The exchange made by a sequence of commands that are all answered `OK` with data 0. -/
def Accepts (is : List Instr) (e f : Engine) : Prop := Answers is e f (List.replicate is.length 0x00000000#32)

theorem accepts_nil (e : Engine) : Accepts [] e e := answers_nil e

theorem Accepts.append {is js : List Instr} {e f g : Engine} (hi : Accepts is e f) (hj : Accepts js f g) :
    Accepts (is ++ js) e g := by
  rw [Accepts, List.length_append, List.replicate_add]
  exact Answers.append hi hj

/-- One command answered `OK`, by its rule. -/
theorem accepts_singleton {i : Instr} {e f : Engine}
    (h : ∀ s : State, s.engine = e → exec i s = .next ((s.withEngine f).answered 0x00000000#32)) : Accepts [i] e f :=
  answers_singleton h

/-- The run of a state that is given a sequence of commands. -/
theorem Answers.run_given {is : List Instr} {s : State} {f : Engine} {rs : List Word}
    (h : Answers is s.engine f rs) : run is.length (s.given is) = .next ⟨f, [], s.responses ++ rs⟩ := by
  simpa [State.given, commandsOf, Function.comp_def] using h [] s.responses

end Sys2Proof.Machine
end

section
/-! PROOFS. Buffers (spec/42_transform.md R132 to R134): `XFORM` answers the data xor the bytes of the engine's generator
and leaves the generator as many steps on. -/

namespace Sys2Proof.Machine

open Reference (Gen xorBytes)

theorem answers_xorb {e : Engine} (hp : e.PHASE = .ready) (b : Byte) :
    Answers [.xorb b] e (prgaNext e) [byteResponse (b ^^^ e.gen.next.output)] := by
  refine answers_singleton fun s hs => ?_
  subst hs
  rw [exec_xorb_of_ready hp, prgaOutput_eq_output, gen_prgaNext]

/-- `XFORM` makes one generator step for each byte of the buffer (R132, R133). -/
theorem answers_xform {e : Engine} (hp : e.PHASE = .ready) (data : List Byte) :
    Answers (pseudoXform data) e (discard data.length e)
      ((xorBytes data (e.gen.bytes data.length)).map byteResponse) := by
  induction data generalizing e with
  | nil => exact answers_nil e
  | cons b data ih =>
    have hrest := ih (e := prgaNext e) hp
    rw [gen_prgaNext] at hrest
    rw [List.length_cons, Gen.bytes_succ]
    exact (answers_xorb hp b).append hrest

theorem discard_PHASE (n : Nat) (e : Engine) : (discard n e).PHASE = e.PHASE := by
  obtain ⟨-, -, -, hphase⟩ := discard_frame n e
  exact hphase

@[simp] theorem length_pseudoXform (data : List Byte) : (pseudoXform data).length = data.length := by
  simp [pseudoXform]

/-- The run of `XFORM` on a live engine. -/
theorem run_xform {s : State} (hp : s.engine.PHASE = .ready) (data : List Byte) :
    run data.length (s.given (pseudoXform data)) = .next ⟨discard data.length s.engine, [],
      s.responses ++ (xorBytes data (s.engine.gen.bytes data.length)).map byteResponse⟩ := by
  simpa using (answers_xform hp data).run_given

/-- Settles O40: the engine's generator gives the keystream, and its steps the engine, before the data is chosen. -/
theorem xformXorsTheBufferWithTheKeystream : Obligations.XformXorsTheBufferWithTheKeystream := by
  intro s n hp
  refine ⟨discard n s.engine, s.engine.gen.bytes n, Gen.length_bytes _ _, (discard_PHASE n _).trans hp, ?_, ?_⟩
  · rintro rfl
    rfl
  · rintro data rfl
    exact run_xform hp data

/-- Settles O41: the exchanges of the two buffers, one after the other, are the exchange of the two joined. -/
theorem xformContinuesWhereTheLastOneEnded : Obligations.XformContinuesWhereTheLastOneEnded := by
  intro s first second hp
  have hp' : (discard first.length s.engine).PHASE = .ready := (discard_PHASE _ _).trans hp
  have hjoined := ((answers_xform hp first).append (answers_xform hp' second)).run_given
  refine ⟨_, _, run_xform hp first, run_xform hp' second, ?_, ?_⟩
  · simpa [pseudoXform] using hjoined
  · simp [Reference.length_xorBytes, Nat.add_assoc]

end Sys2Proof.Machine
end

section
/-! PROOFS. A new engine from a key (spec/30_encoding.md R82, spec/40_key_schedule.md R93, R94): `LOADKEY` keeps the
key's first 256 bytes, which are all its schedule reads, so `NEWINST` and `XFORM` answer as the source's cipher. -/

namespace Sys2Proof.Machine

open Reference (Gen genAt transform)

/-! ### `LOADKEY` -/

theorem accepts_keyb_of_room {e : Engine} (hp : e.PHASE = .idle) (hk : e.KEYLEN.toNat < 256) (b : Byte) :
    Accepts [.keyb b] e (appendKeyByte e b) :=
  accepts_singleton fun s hs => by subst hs; exact exec_keyb_of_room hp hk b

theorem accepts_keyb_of_full {e : Engine} (hp : e.PHASE = .idle) (hk : 256 ≤ e.KEYLEN.toNat) (b : Byte) :
    Accepts [.keyb b] e e :=
  accepts_singleton fun s hs => by subst hs; exact exec_keyb_of_full hp hk b

/-- The engine with the first 256 bytes of a key in `KEY`, over what was there. -/
def Engine.withKey (e : Engine) (K : Memory) (key : List Byte) : Engine :=
  { e with KEY := K, KEYLEN := BitVec.ofNat 9 (min key.length 256) }

theorem withKey_KEYLEN_toNat (e : Engine) (K : Memory) (key : List Byte) :
    (e.withKey K key).KEYLEN.toNat = min key.length 256 := by
  rw [Engine.withKey, BitVec.toNat_ofNat]
  omega

/-- A memory that holds the first 256 bytes of a key over what another held. -/
def Memory.HoldsOver (K : Memory) (key : List Byte) (old : Memory) : Prop :=
  ∀ a : Byte, K.read a = if a.toNat < key.length then key.getD a.toNat 0#8 else old.read a

theorem withKey_append_of_room (e : Engine) (K : Memory) {key : List Byte} (h : key.length < 256) (b : Byte) :
    appendKeyByte (e.withKey K key) b = e.withKey (appendKeyByte (e.withKey K key) b).KEY (key ++ [b]) := by
  have hlen : min (key ++ [b]).length 256 = min key.length 256 + 1 := by
    rw [List.length_append, List.length_singleton]
    omega
  conv_rhs => rw [Engine.withKey, hlen, BitVec.ofNat_add]
  rfl

theorem withKey_append_of_full (e : Engine) (K : Memory) {key : List Byte} (h : 256 ≤ key.length) (b : Byte) :
    e.withKey K (key ++ [b]) = e.withKey K key := by
  have hlen : min (key ++ [b]).length 256 = min key.length 256 := by
    rw [List.length_append]
    omega
  rw [Engine.withKey, hlen, Engine.withKey]

theorem Memory.HoldsOver.append_of_room {K K' old : Memory} {key : List Byte} (hK : K.HoldsOver key old) (b : Byte)
    (hK' : ∀ a : Byte, K'.read a = if a.toNat = key.length then b else K.read a) : K'.HoldsOver (key ++ [b]) old := by
  intro a
  rw [hK', List.length_append, List.length_singleton]
  obtain hlt | heq | hgt := Nat.lt_trichotomy a.toNat key.length
  · rw [if_neg hlt.ne, hK, if_pos hlt, if_pos (by omega), List.getD_append _ _ _ _ hlt]
  · rw [if_pos heq, if_pos (by omega), heq]
    simp
  · rw [if_neg hgt.ne', hK, if_neg (by omega), if_neg (by omega)]

/-- The 257th byte of a key and the later ones are at no index of the memory. -/
theorem Memory.HoldsOver.append_of_full {K old : Memory} {key : List Byte} (hK : K.HoldsOver key old)
    (h : 256 ≤ key.length) (b : Byte) : K.HoldsOver (key ++ [b]) old := by
  intro a
  have hlt : a.toNat < key.length := a.isLt.trans_le h
  rw [hK, if_pos hlt, List.length_append, if_pos (by omega), List.getD_append _ _ _ _ hlt]

/-- `LOADKEY` on an engine with no key loaded (R93). -/
theorem accepts_loadKey {e : Engine} (hp : e.PHASE = .idle) (hk : e.KEYLEN = 0#9) (key : List Byte) :
    ∃ K : Memory, Accepts (pseudoLoadKey key) e (e.withKey K key) ∧ K.HoldsOver key e.KEY := by
  induction key using List.reverseRecOn with
  | nil =>
    have hsame : e.withKey e.KEY [] = e := by simp [Engine.withKey, ← hk]
    exact ⟨e.KEY, hsame.symm ▸ accepts_nil e, fun a => by simp⟩
  | append_singleton key b ih =>
    obtain ⟨K, hload, hK⟩ := ih
    have hp' : (e.withKey K key).PHASE = .idle := hp
    have hlen := withKey_KEYLEN_toNat e K key
    rw [pseudoLoadKey, List.map_append]
    obtain hroom | hfull := Nat.lt_or_ge key.length 256
    · rw [Nat.min_eq_left hroom.le] at hlen
      have hlt : (e.withKey K key).KEYLEN.toNat < 256 := hlen ▸ hroom
      refine ⟨(appendKeyByte (e.withKey K key) b).KEY, hload.append ?_, hK.append_of_room b fun a => ?_⟩
      · rw [← withKey_append_of_room e K hroom]
        exact accepts_keyb_of_room hp' hlt b
      · rw [read_appendKeyByte_KEY hlt, hlen, Engine.withKey]
    · rw [Nat.min_eq_right hfull] at hlen
      refine ⟨K, hload.append ?_, hK.append_of_full hfull b⟩
      rw [withKey_append_of_full e K hfull]
      exact accepts_keyb_of_full hp' hlen.ge b

@[simp] theorem length_pseudoLoadKey (key : List Byte) : (pseudoLoadKey key).length = key.length := by
  simp [pseudoLoadKey]

/-- Settles O39: the run of `LOADKEY`, whose bytes are in `KEY` over the old entries. -/
theorem keyBytesBeyondThe256thAreDropped : Obligations.KeyBytesBeyondThe256thAreDropped := by
  intro s key hp hk
  obtain ⟨K, hload, hK⟩ := accepts_loadKey hp hk key
  have hrun := Answers.run_given hload
  rw [length_pseudoLoadKey] at hrun
  exact ⟨K, hrun, hK⟩

/-! ### `NEWINST` and `XFORM` -/

theorem accepts_clear (e : Engine) : Accepts [.clear] e clearedEngine :=
  accepts_singleton fun s _ => exec_clear s

theorem accepts_setdrop {e : Engine} (hp : e.PHASE = .idle) (n : DropCount) :
    Accepts [.setdrop n] e { e with DROP := n } :=
  accepts_singleton fun s hs => by subst hs; exact exec_setdrop_of_idle hp n

theorem accepts_init {e : Engine} (hp : e.PHASE = .idle) (hk : e.KEYLEN ≠ 0#9) : Accepts [.init] e (construct e) :=
  accepts_singleton fun s hs => by subst hs; exact exec_init_of_keyed hp hk

theorem withKey_KEYLEN_ne_zero (e : Engine) (K : Memory) {key : List Byte} (hne : key ≠ []) :
    (e.withKey K key).KEYLEN ≠ 0#9 := by
  have hlen := withKey_KEYLEN_toNat e K key
  have hpos : 0 < key.length := List.length_pos_iff.2 hne
  intro h
  rw [h, BitVec.toNat_ofNat] at hlen
  omega

/-- The schedule reads no index at or past the end of the key or of the memory. -/
theorem holdsKey_withKey {e : Engine} {K old : Memory} {key : List Byte} (hne : key ≠ [])
    (hK : K.HoldsOver key old) :
    (e.withKey K key).HoldsKey key := by
  intro idx hidx
  have hpos : 0 < key.length := List.length_pos_iff.2 hne
  have hmod : idx % min key.length 256 = idx % key.length := by
    obtain hle | hgt := Nat.le_total key.length 256
    · rw [Nat.min_eq_left hle]
    · rw [Nat.min_eq_right hgt, Nat.mod_eq_of_lt hidx, Nat.mod_eq_of_lt (hidx.trans_le hgt)]
  have hlt : idx % key.length < key.length := Nat.mod_lt _ hpos
  have hbyte : (BitVec.ofNat 8 (idx % key.length)).toNat = idx % key.length :=
    (BitVec.toNat_ofNat _ _).trans (Nat.mod_eq_of_lt ((Nat.mod_le _ _).trans_lt hidx))
  rw [scheduledByte, withKey_KEYLEN_toNat, hmod]
  exact (hK _).trans (by rw [hbyte, if_pos hlt])

/-- `NEWINST` from any state makes a live engine that holds the key's generator (R82, R94). -/
theorem accepts_newInst (e : Engine) (drop : Option DropCount) {key : List Byte} (hne : key ≠ []) :
    ∃ f : Engine, f.PHASE = .ready ∧ f.gen = genAt key (drop.getD 768#24).toNat ∧
      Accepts (pseudoNewInst drop key) e f := by
  obtain ⟨K, hload, hK⟩ := accepts_loadKey (e := clearedEngine) rfl rfl key
  have hloaded := (accepts_clear e).append hload
  have hkeylen := withKey_KEYLEN_ne_zero clearedEngine K hne
  have hkey := holdsKey_withKey (e := clearedEngine) hne hK
  cases drop with
  | none => exact ⟨_, construct_PHASE _, gen_construct hkey, hloaded.append (accepts_init rfl hkeylen)⟩
  | some n =>
    exact ⟨_, construct_PHASE _, gen_construct (e := { clearedEngine.withKey K key with DROP := n }) hkey,
      hloaded.append ((accepts_setdrop rfl n).append (accepts_init rfl hkeylen))⟩

/-- A new engine answers the source's transform of a buffer. -/
theorem answers_newInst_xform (e : Engine) (drop : Option DropCount) {key : List Byte} (hne : key ≠ [])
    (data : List Byte) :
    ∃ f : Engine, f.PHASE = .ready ∧ Answers (pseudoNewInst drop key ++ pseudoXform data) e f
      (List.replicate (pseudoNewInst drop key).length 0x00000000#32 ++
        (transform key (drop.getD 768#24).toNat data).map byteResponse) := by
  obtain ⟨f, hp, hgen, hnew⟩ := accepts_newInst e drop hne
  refine ⟨discard data.length f, (discard_PHASE _ _).trans hp, ?_⟩
  rw [Reference.transform_eq_xorBytes, ← hgen]
  exact Answers.append hnew (answers_xform hp data)

/-- Settles O42: the run of `NEWINST` and `XFORM`. -/
theorem newInstanceTransformsAsTheSource : Obligations.NewInstanceTransformsAsTheSource := by
  intro s key data drop hne
  obtain ⟨f, hp, h⟩ := answers_newInst_xform s.engine drop hne data
  have hrun := h.run_given
  rw [List.length_append, length_pseudoXform, ← List.append_assoc] at hrun
  exact ⟨f, hp, hrun⟩

end Sys2Proof.Machine
end

section
/-! PROOFS. Two engines compared through the source's cipher: two drop counts of one key (spec/41_keystream.md R117),
and the involution from equivalent keys (spec/40_key_schedule.md R101, spec/42_transform.md R135). -/

namespace Sys2Proof.Reference

/-! ### A buffer and a keystream -/

/-- The same keystream twice gives the buffer back. -/
theorem xorBytes_xorBytes {data ks : List Byte} (h : ks.length = data.length) :
    xorBytes (xorBytes data ks) ks = data := by
  refine List.ext_getElem (by simp [xorBytes, h]) fun k _ _ => ?_
  simp [xorBytes]

/-- A buffer of zeros gives the keystream itself (R82 `KSB`). -/
theorem xorBytes_zeros (ks : List Byte) : xorBytes (List.replicate ks.length 0#8) ks = ks := by
  refine List.ext_getElem (by simp [xorBytes]) fun k _ _ => ?_
  simp [xorBytes]

/-! ### Equivalent keys -/

/-- Keys that agree at `idx mod length` for every index of the schedule (R101). -/
def EquivalentKeys (key again : List Byte) : Prop :=
  ∀ idx < 256, key.getD (idx % key.length) 0#8 = again.getD (idx % again.length) 0#8

theorem scheduleAt_congr {key again : List Byte} (h : EquivalentKeys key again) {n : Nat} (hn : n ≤ 256) :
    scheduleAt key n = scheduleAt again n := by
  induction n with
  | zero => rfl
  | succ n ih =>
    have hlt : n < 256 := hn
    simp only [scheduleAt, ih hlt.le, h n hlt]

theorem genAt_congr {key again : List Byte} (h : EquivalentKeys key again) (n : Nat) :
    genAt key n = genAt again n := by
  rw [genAt_eq_iterate, genAt_eq_iterate again, genAt, genAt, scheduleAt_congr h le_rfl]

theorem length_transform (key : List Byte) (drop : Nat) (data : List Byte) :
    (transform key drop data).length = data.length := by
  rw [transform_eq_xorBytes, length_xorBytes (Gen.length_bytes _ _)]

/-- The involution of the source's cipher (R135). -/
theorem transform_transform {key again : List Byte} (h : EquivalentKeys key again) (drop : Nat) (data : List Byte) :
    transform again drop (transform key drop data) = data := by
  rw [transform_eq_xorBytes again, length_transform, transform_eq_xorBytes key, genAt_congr h,
    xorBytes_xorBytes (Gen.length_bytes _ _)]

end Sys2Proof.Reference

namespace Sys2Proof.Machine

open Reference (Gen genAt transform)

/-! ### The drop count -/

/-- `INIT` and then `KSB` after `KSB`: the bytes of the generator of the loaded key after `DROP` steps. -/
theorem answers_init_ksb {e : Engine} (hp : e.PHASE = .idle) (hk : e.KEYLEN ≠ 0#9) (n : Nat) :
    Answers (.init :: List.replicate n (.xorb 0#8)) e (discard n (construct e))
      (0x00000000#32 :: ((genAt e.key e.DROP.toNat).bytes n).map byteResponse) := by
  have hxform := answers_xform (construct_PHASE e) (List.replicate n 0#8)
  have hzeros := Reference.xorBytes_zeros ((genAt e.key e.DROP.toNat).bytes n)
  rw [Gen.length_bytes] at hzeros
  rw [pseudoXform, List.map_replicate, List.length_replicate, gen_construct (holdsKey_key hk), hzeros] at hxform
  exact Answers.append (accepts_init hp hk) hxform

theorem run_init_ksb {e : Engine} (hp : e.PHASE = .idle) (hk : e.KEYLEN ≠ 0#9) (n : Nat) (told : List Word) :
    run (1 + n) ⟨e, commandsOf (.init :: List.replicate n (.xorb 0#8)), told⟩ =
      .next ⟨discard n (construct e), [],
        told ++ 0x00000000#32 :: ((genAt e.key e.DROP.toNat).bytes n).map byteResponse⟩ := by
  have hrun := (answers_init_ksb (e := e) hp hk n).run_given (s := ⟨e, [], told⟩)
  rwa [List.length_cons, List.length_replicate, Nat.add_comm] at hrun

/-- Settles O38: both engines hold the generator of one key, the second `n` steps on. -/
theorem dropCountRemovesTheFirstBytes : Obligations.DropCountRemovesTheFirstBytes := by
  intro s n m hp hk
  refine ⟨_, _, (genAt s.engine.key 0).bytes (n.toNat + m), Gen.length_bytes _ _,
    run_init_ksb (e := { s.engine with DROP := 0#24 }) hp hk _ _, rfl,
    run_init_ksb (e := { s.engine with DROP := n }) hp hk _ _, ?_⟩
  rw [Gen.drop_bytes, ← Reference.genAt_eq_iterate]
  rfl

/-! ### The involution -/

/-- Settles O43: the first run answers the source's transform of the buffer, and the second transforms it back. -/
theorem secondInstanceInvertsTheFirst : Obligations.SecondInstanceInvertsTheFirst := by
  intro a b key again data drop hkey hagain hequiv
  obtain ⟨e, -, he⟩ := newInstanceTransformsAsTheSource a key data drop hkey
  obtain ⟨f, -, hf⟩ :=
    newInstanceTransformsAsTheSource b again (transform key (drop.getD 768#24).toNat data) drop hagain
  rw [Reference.length_transform, Reference.transform_transform hequiv] at hf
  exact ⟨_, _, _, Reference.length_transform _ _ _, he, rfl, hf, rfl⟩

end Sys2Proof.Machine
end

section
/-! PROOFS. What an idle engine hides (spec/10_state.md R35): two idle engines that differ in `S`, `I`, `J` and unloaded
key bytes alone answer every action of the host alike, until a `CLEAR`, a reset or an `INIT` makes them equal. -/

namespace Sys2Proof.Machine

/-! ### The construction reads nothing hidden -/

theorem becomeReady_discard (n : Nat) (e : Engine) : becomeReady (discard n e) = discard n (becomeReady e) := by
  induction n generalizing e with
  | zero => rfl
  | succ n ih => exact ih (prgaNext e)

/-- Two engines that agree in `KEYLEN`, `DROP` and the loaded entries of `KEY`, both idle. -/
structure IdleAlike (e f : Engine) : Prop where
  idle_left : e.PHASE = .idle
  idle_right : f.PHASE = .idle
  keylen : e.KEYLEN = f.KEYLEN
  drop : e.DROP = f.DROP
  key : ∀ a : Byte, a.toNat < e.KEYLEN.toNat → e.KEY.read a = f.KEY.read a

theorem IdleAlike.construct_eq {e f : Engine} (h : IdleAlike e f) (hk : e.KEYLEN ≠ 0#9) : construct e = construct f := by
  have hS : ksa e.KEY e.KEYLEN = ksa f.KEY f.KEYLEN := by
    rw [← h.keylen]
    exact ksa_congr fun idx _ => scheduledByte_congr hk h.key idx
  have hstart : becomeReady (schedule e) = becomeReady (schedule f) := by
    simp only [becomeReady, schedule, hS, h.drop]
  rw [construct, construct, becomeReady_discard, becomeReady_discard, hstart, h.drop]

theorem IdleAlike.appendKeyByte {e f : Engine} (h : IdleAlike e f) (hk : e.KEYLEN.toNat < 256) (b : Byte) :
    IdleAlike (appendKeyByte e b) (appendKeyByte f b) where
  idle_left := h.idle_left
  idle_right := h.idle_right
  keylen := by rw [appendKeyByte_KEYLEN, appendKeyByte_KEYLEN, h.keylen]
  drop := h.drop
  key := fun a ha => by
    rw [appendKeyByte_KEYLEN, toNat_keylen_succ hk] at ha
    rw [read_appendKeyByte_KEY hk, read_appendKeyByte_KEY (h.keylen ▸ hk), ← h.keylen]
    split_ifs with hlast
    · rfl
    · exact h.key a (by omega)

theorem IdleAlike.setdrop {e f : Engine} (h : IdleAlike e f) (n : DropCount) :
    IdleAlike { e with DROP := n } { f with DROP := n } where
  idle_left := h.idle_left
  idle_right := h.idle_right
  keylen := h.keylen
  drop := rfl
  key := h.key

/-! ### Every action of the host -/

/-- Two engines the host cannot tell apart. -/
inductive Alike (e f : Engine) : Prop
  | equal (h : e = f)
  | idle (h : IdleAlike e f)

theorem IdleAlike.effect {e f : Engine} (h : IdleAlike e f) (i : Instr) :
    Alike (effect i e).engine (effect i f).engine := by
  have he := h.idle_left
  have hf := h.idle_right
  cases i with
  | clear => exact .equal rfl
  | rdstat => exact .idle h
  | rddrop => exact .idle h
  | xorb b => simpa [Machine.effect, Effect.error, he, hf] using Alike.idle h
  | setdrop n => simpa [Machine.effect, he, hf] using Alike.idle (h.setdrop n)
  | keyb b =>
    by_cases hk : e.KEYLEN.toNat < 256
    · simpa [Machine.effect, he, hf, keyHasRoom_iff, ← h.keylen, hk] using Alike.idle (h.appendKeyByte hk b)
    · simpa [Machine.effect, he, hf, keyHasRoom_iff, ← h.keylen, hk] using Alike.idle h
  | init =>
    by_cases hk : e.KEYLEN = 0#9
    · simpa [Machine.effect, Effect.error, he, hf, ← h.keylen, hk] using Alike.idle h
    · simpa [Machine.effect, he, hf, ← h.keylen, hk] using Alike.equal (h.construct_eq hk)

theorem IdleAlike.effect_response {e f : Engine} (h : IdleAlike e f) (i : Instr) :
    (Machine.effect i e).code = (Machine.effect i f).code ∧ (Machine.effect i e).data = (Machine.effect i f).data := by
  by_cases hi : ∃ b, i = .xorb b
  · obtain ⟨b, rfl⟩ := hi
    simp [Machine.effect, Effect.error, h.idle_left, h.idle_right]
  · exact effect_response_congr h.keylen h.drop (h.idle_left.trans h.idle_right.symm) (not_exists.1 hi)

/-- A word is answered alike and leaves the two engines alike. -/
theorem Alike.wordEffect {e f : Engine} (h : Alike e f) (cw : Word) :
    Alike (wordEffect cw e).engine (wordEffect cw f).engine ∧ (wordEffect cw e).code = (wordEffect cw f).code ∧
      (wordEffect cw e).data = (wordEffect cw f).data := by
  obtain ⟨rfl⟩ | ⟨h⟩ := h
  · exact ⟨.equal rfl, rfl, rfl⟩
  · cases hd : decode cw with
    | command i =>
      rw [wordEffect_of_command hd, wordEffect_of_command hd]
      exact ⟨h.effect i, h.effect_response i⟩
    | illegal why =>
      rw [wordEffect_of_illegal hd, wordEffect_of_illegal hd]
      exact ⟨.idle h, rfl, rfl⟩

/-- Two states with the same traffic at the ports, before and to come, whose engines the host cannot tell apart. -/
structure State.Alike (s u : State) : Prop where
  engine : Machine.Alike s.engine u.engine
  input : s.input = u.input
  responses : s.responses = u.responses

theorem State.Alike.step {s u : State} (h : s.Alike u) :
    ∃ s' u', Machine.step s = .next s' ∧ Machine.step u = .next u' ∧ s'.Alike u' := by
  cases hu : u.input with
  | nil => exact ⟨s, u, step_of_no_input (h.input.trans hu), step_of_no_input hu, h⟩
  | cons a rest =>
    have hs := h.input.trans hu
    cases a with
    | command cw =>
      obtain ⟨hengine, hcode, hdata⟩ := h.engine.wordEffect cw
      exact ⟨_, _, step_command hs, step_command hu, hengine, rfl, by rw [h.responses, hcode, hdata]⟩
    | reset => exact ⟨_, _, step_reset hs, step_reset hu, .equal rfl, rfl, h.responses⟩
    | commandCutByReset cw =>
      exact ⟨_, _, step_commandCutByReset hs, step_commandCutByReset hu, .equal rfl, rfl, h.responses⟩

theorem State.Alike.run {s u : State} (h : s.Alike u) (n : Nat) :
    ∃ s' u', Machine.run n s = .next s' ∧ Machine.run n u = .next u' ∧ s'.Alike u' := by
  induction n generalizing s u with
  | zero => exact ⟨s, u, rfl, rfl, h⟩
  | succ n ih =>
    obtain ⟨s', u', hs, hu, h'⟩ := h.step
    rw [run_succ_of_step n hs, run_succ_of_step n hu]
    exact ih h'

/-- Settles O46: the two runs stay alike, and states that are alike have given the same responses. -/
theorem idleContentsCannotBeObserved : Obligations.IdleContentsCannotBeObserved := by
  intro s u n hs hu hkeylen hdrop hkey hinput hresponses
  have h : s.Alike u := ⟨.idle ⟨hs, hu, hkeylen, hdrop, hkey⟩, hinput, hresponses⟩
  obtain ⟨s', u', hrun, hrun', h'⟩ := h.run n
  exact ⟨s', u', hrun, hrun', h'.responses⟩

end Sys2Proof.Machine
end
